-- ==== Sys2Proof/Word.lean ====
section
/-!
DEFINITION. The units of the block: a byte (spec/00_scope.md R9) and the two words of spec/30_encoding.md,
the 44-bit command word (R71) and the 48-bit view of a telegram (R61).
-/

namespace Sys2Proof

/-- A byte, an unsigned integer 0..255 unless a rule reads it as signed (R9, R45: the only width of the block). -/
abbrev Byte := BitVec 8

/-- The command word `CW` by which the host requests one operation (R71). -/
abbrev CommandWord := BitVec 44

/-- The six bytes of a telegram viewed as one word `W`, byte offset 0 in bits 47:40 (R61). -/
abbrev TelegramWord := BitVec 48

/-- A word of one of the block's two encodings: the host presents a command word at the command port,
the transport delivers a telegram on the receive stream (R70, R60). -/
inductive CodeWord where
  | command (w : CommandWord)
  | telegram (w : TelegramWord)
  deriving DecidableEq, Repr

end Sys2Proof
end

