-- ==== Sys2Proof/Config.lean ====
section
/-!
DEFINITION. The fixed parameters of spec/00_scope.md R6 and the open parameters of R7. A fixed parameter is a
plain constant. An open parameter is plain data of type `Params`, which `State` carries and no step changes
(notes/assumptions/1.md); the values it has at reset are the constants without a body at the end of this file.
-/

namespace Sys2Proof

namespace Config

/-- `FRAME_LEN`: bytes in one telegram (R6). -/
def frameLen : Nat := 6

/-- `DOMAIN`: the required value of byte 0 (R6, R62). -/
def domain : Byte := 0x01

/-- `CHECKSUM_MOD` (R6). -/
def checksumMod : Nat := 256

/-- `TENC_NOT_FOUND`: what TENC returns when no entry qualifies (R6, R102; spec/90_conflicts.md C2). -/
def tencNotFound : Byte := 100

/-- `POLL_MARKER`: the command byte of a poll request (R6, R67). -/
def pollMarker : Byte := 0x00

/-- `VAR_SUSPEND`: the reserved variable code of a suspend broadcast (R6, R68). -/
def varSuspend : Byte := 0x91

/-- `VAR_RESUME`: the reserved variable code of a resume broadcast (R6, R69). -/
def varResume : Byte := 0x8F

/-- The command byte of row `TG.FANSPEED` (R74; known only from the source's one example). -/
def varFanspeed : Byte := 0x29

/-- `FAN_TABLE`: the wire bytes of the logical speeds 1 to 8 (R6, R27). The entries at index 3 to 6 are
recovered by the spec from the pattern. DEDUCED, unsafe: notes/assumptions/17.md. -/
def fanTable : Vector Byte 8 := #v[0x01, 0x03, 0x07, 0x0F, 0x1F, 0x3F, 0x7F, 0xFF]

end Config

/-- `TEMP_TABLE`: 256 entries, each the byte of a two's-complement integer -128..127 (R26, R10). -/
abbrev TempTable := Vector Byte 256

/-- One field of a bit-field layout (R108): a flag at bit i in 0..7, or a 4-bit count at lsb in 0..4. The
names are labels and do not affect a result. -/
inductive Field where
  | flag (name : String) (i : Fin 8)
  | count (name : String) (lsb : Fin 5)
  deriving DecidableEq, Repr

/-- A bit-field layout: a name and an ordered list of fields (R108). R108 gives no number of counts, only that the
source has a count in "program fields": here any layout may hold any number of counts. DESIGN CHOICE, safe:
notes/assumptions/31.md. -/
structure Layout where
  name : String
  fields : List Field
  deriving DecidableEq, Repr

/-- Layout 0, `BITS8`: eight flags, bit 0 first (R112). -/
def Layout.bits8 : Layout :=
  { name := "BITS8"
    fields := [.flag "bit0" 0, .flag "bit1" 1, .flag "bit2" 2, .flag "bit3" 3,
               .flag "bit4" 4, .flag "bit5" 5, .flag "bit6" 6, .flag "bit7" 7] }

/-- The open parameters of R7. `otherLayouts` are the layouts from number 1 on: layout 0 is fixed (R112).
`rxDepth` is `none` where the receive queue is unbounded. -/
structure Params where
  tempTable : TempTable
  otherLayouts : List Layout
  rxDepth : Option Nat
  deriving DecidableEq, Repr

/-- `LAYOUTS` (R108), with layout 0 fixed as `BITS8` (R112). -/
def Params.layouts (p : Params) : List Layout := Layout.bits8 :: p.otherLayouts

namespace Config

/-- The temperature table of this block, whose entries the spec does not give (R7; N1, U9): no proof can see
an entry, and no property of it is assumed. Safe: notes/assumptions/2.md. -/
opaque tempTable : TempTable

/-- The layouts from number 1 on, which the spec does not give (R7, R108; N2). Safe:
notes/assumptions/3.md. -/
opaque otherLayouts : List Layout

/-- `RX_DEPTH` at reset: the spec's default, unbounded (R7; D3). DESIGN CHOICE, unsafe:
notes/assumptions/4.md. -/
def rxDepth : Option Nat := none

/-- `RXQ_INIT` of the fixed reset state: the spec's default, empty (R20, R190; D17). DESIGN CHOICE, unsafe:
notes/assumptions/5.md. -/
def rxqInit : List Byte := []

/-- The open parameters as the reset state carries them. -/
def params : Params :=
  { tempTable := tempTable, otherLayouts := otherLayouts, rxDepth := rxDepth }

end Config

end Sys2Proof
end

