-- ==== Sys2Proof/Syntax.lean ====
section
/-!
DEFINITION. The instructions: one constructor per row of spec/opcode_table.json. The eight commands and the
pseudo-instruction POLL are words of the command port (spec/30_encoding.md R70 to R72, R80); the five telegram
classes are words of the wire (R67 to R69, R74).
-/

namespace Sys2Proof

/-- One row of the opcode table with its operand bytes. -/
inductive Instr where
  /-- `TDEC b` (R101). -/
  | tdec (b : Byte)
  /-- `TENC t`, the signed temperature carried as the byte `u8(t)` (R102, R73). -/
  | tenc (t : Byte)
  /-- `FDEC b` (R104). -/
  | fdec (b : Byte)
  /-- `FENC v` (R105). -/
  | fenc (v : Byte)
  /-- `UNPK L, b` (R107). -/
  | unpk (layout b : Byte)
  /-- `CKSUM b0, b1, b2, b3, b4` (R132). -/
  | cksum (b0 b1 b2 b3 b4 : Byte)
  /-- `RXSVC` (R133). -/
  | rxsvc
  /-- `TXENC sender, receiver, variable, value` (R140). -/
  | txenc (sender receiver varcode value : Byte)
  /-- `POLL s, r, v`, which expands to `TXENC s, r, 0x00, v` (R80). -/
  | poll (sender receiver varcode : Byte)
  /-- Row `TG.VAR`: a telegram whose command byte has no row of its own (R74). -/
  | tgVar (sender receiver command argument checksum : Byte)
  /-- Row `TG.POLL`: command byte `0x00`, the argument is the variable requested (R67). -/
  | tgPoll (sender receiver varcode checksum : Byte)
  /-- Row `TG.SUSPEND`: command byte `0x91` (R68). -/
  | tgSuspend (sender receiver argument checksum : Byte)
  /-- Row `TG.RESUME`: command byte `0x8F` (R69). -/
  | tgResume (sender receiver argument checksum : Byte)
  /-- Row `TG.FANSPEED`: command byte `0x29` (R74). -/
  | tgFanspeed (sender receiver argument checksum : Byte)
  deriving DecidableEq, Repr

end Sys2Proof
end

