-- ==== Sys2Proof/Machine/State.lean ====
section
/-!
DEFINITION. The state of the block (spec/10_state.md R29), the outcome a command returns (spec/60_exceptions.md
R160), what the outside world does to it (spec/00_scope.md R14), and the ways a step can stop. All of it is
plain data.
-/

namespace Sys2Proof.Machine

/-- The names of the six frame bytes `F[0..5]` (R22). -/
inductive FrameField where
  | domain | sender | receiver | command | argument | checksum
  deriving DecidableEq, Repr

/-- The frame register `F[0..5]`. A byte is `none` while it holds no value, as every byte does between
commands (R22; D5, U7). notes/assumptions/9.md. -/
structure Frame where
  domain : Option Byte
  sender : Option Byte
  receiver : Option Byte
  command : Option Byte
  argument : Option Byte
  checksum : Option Byte
  deriving DecidableEq, Repr

/-- `F` holding no value: its content at reset and between commands (R22, R29). -/
def Frame.empty : Frame := ⟨none, none, none, none, none, none⟩

/-- The phase of the block's part of the reception state machine (R28, R143). `Dispatching` is the excluded
engine's. -/
inductive Phase where
  | idle | decoding
  deriving DecidableEq, Repr

/-- The value of one unpacked field (R109, R110): a boolean, or an integer 0..15. -/
inductive FieldValue where
  | flag (v : Bool)
  | count (n : Nat)
  deriving DecidableEq, Repr

/-- The payload of outcome `OK`: the command's result (R160). -/
inductive Result where
  /-- TDEC: a signed temperature (R101). -/
  | temp (t : Int)
  /-- TENC, FENC, CKSUM: a byte (R102, R105, R132). -/
  | byte (b : Byte)
  /-- FDEC: a speed 0..8 (R104). -/
  | speed (n : Nat)
  /-- UNPK: the fields of the layout, in order (R107). -/
  | fields (fs : List FieldValue)
  /-- TXENC: the six bytes written (R140). -/
  | bytes (bs : List Byte)
  deriving DecidableEq, Repr

/-- The outcome of a command: one of six statuses with its payload (R160). -/
inductive CommandOutcome where
  | ok (r : Result)
  | telegram (sender receiver command argument : Byte)
  | noFrame
  | unexpectedDomainByte (byte : Byte)
  /-- The last byte is the received checksum byte `F[5]` (R133; D14, notes/assumptions/21.md). -/
  | checksumMismatch (sender receiver command argument checksum : Byte)
  | invalidArgument (operand : Byte)
  deriving DecidableEq, Repr

/-- One thing the outside world does between two commands (R14): the host presents a command word or the
wire carries a telegram (`word`), the transport appends one received byte (R50, `arrive`), or the block is
restarted with a given content of the transport's buffer (R190, `restart`). -/
inductive Event where
  | word (w : CodeWord)
  | arrive (b : Byte)
  | restart (rxqInit : List Byte)
  deriving DecidableEq, Repr

/-- The state. `rxq`, `txq`, `frame`, `phase` are the block's (R29); `params` are the open parameters, which
no step changes (notes/assumptions/1.md); `inputs` is what the outside world will do, oldest first
(notes/assumptions/7.md); `returned` is the outcome the last step handed to the host, `none` where it handed
none, and no step reads it (notes/assumptions/8.md). -/
structure State where
  rxq : List Byte
  txq : List Byte
  frame : Frame
  phase : Phase
  params : Params
  inputs : List Event
  returned : Option CommandOutcome
  deriving DecidableEq, Repr

/-- The reasons a step stops with a fault. Neither is ever reached: the block reads no frame byte before
writing it (R22) and never pops an empty queue (R48). Both are safe. -/
inductive Fault where
  /-- Raised by a read of a frame byte that holds no value (U7). Safe. -/
  | frameReadBeforeWrite (k : FrameField)
  /-- Raised by `RxPop` on an empty queue, which R48 requires to be non-empty. Safe. -/
  | rxUnderflow
  deriving DecidableEq, Repr

/-- The reasons the model gives no step. -/
inductive Refusal where
  /-- Raised by an arm of `exec` whose instruction has no meaning yet. Safe. -/
  | notModelled (mnemonic : String)
  /-- Raised by the fetch of a command word whose op is 8..15, which selects no command (R78; D19, U6). Safe. -/
  | reservedCommandCode (op : Nat)
  /-- Raised by the arrival of a byte (or a restart with a buffer content) that `rxq` has no room for (R50,
  R201; U4). Safe. -/
  | rxOverflow
  deriving DecidableEq, Repr

/-- What the step finds when it looks for its next instruction; the state is the one without that event. -/
inductive Fetched where
  /-- The outside world asks for nothing. -/
  | idle
  /-- A byte arrives. -/
  | arrival (b : Byte) (s : State)
  /-- A restart. -/
  | restart (rxqInit : List Byte) (s : State)
  /-- A word that decodes to an instruction. -/
  | instruction (i : Instr) (s : State)
  /-- Six bytes on the wire that begin with another byte than the domain byte, and so are no telegram (R75). -/
  | strayFrame (w : TelegramWord) (s : State)
  /-- A command word that selects no command. -/
  | rejected (r : Refusal)
  deriving DecidableEq, Repr

/-- The state right after reset, for open parameters `p` and the transport's buffer content `rxqInit`
(R190): every other piece of state is empty and the phase is Idle. -/
def State.resetWith (p : Params) (rxqInit : List Byte) : State :=
  { rxq := rxqInit
    txq := []
    frame := Frame.empty
    phase := .idle
    params := p
    inputs := []
    returned := none }

/-- The state right after reset (R29, R190), at the defaults of the open parameters
(notes/assumptions/2.md to 5.md). -/
def State.reset : State := State.resetWith Config.params Config.rxqInit

end Sys2Proof.Machine
end

