-- ==== Sys2Proof/Machine/Operands.lean ====
section
/-!
DEFINITION. The operand forms and the values computed from operands: signedness (spec/00_scope.md R10), the
table reads (spec/20_memory.md R42, R43) and searches, the bit fields (spec/40_value_codec.md R107 to R110),
the checksum (spec/41_telegram_codec.md R131) and the bytes of a telegram (spec/30_encoding.md R60).
-/

namespace Sys2Proof.Machine

/-- `s8(b)`: the byte as a two's-complement integer (R10). -/
def s8 (b : Byte) : Int := if b.toNat < 128 then b.toNat else (b.toNat : Int) - 256

/-- `u8(v)`: `v mod 256` as a byte (R10). -/
def u8 (v : Int) : Byte := BitVec.ofInt 8 v

/-- `TEMP_TABLE[i]`, signed; every byte is a valid index (R42). -/
def tempAt (table : TempTable) (i : Byte) : Int := s8 (table[i.toNat]'i.isLt)

/-- TENC's search: the first index whose entry is at least `t`, else the byte 100 (R102). -/
def firstAtOrAbove (table : TempTable) (t : Int) : Byte :=
  match table.toList.findIdx? (fun e => decide (t ≤ s8 e)) with
  | some i => BitVec.ofNat 8 i
  | none => Config.tencNotFound

/-- FDEC's search: index + 1 of the entry equal to `b`, else 0 (R104). -/
def speedOf (b : Byte) : Nat :=
  match Config.fanTable.toList.findIdx? (fun e => decide (e = b)) with
  | some i => i + 1
  | none => 0

/-- FENC: the fan-table byte of a speed 1..8, else `InvalidArgument`; the index `v - 1` is formed only after
the range test (R105, R114, R43). -/
def fanWireByte (v : Byte) : CommandOutcome :=
  if h : 1 ≤ v.toNat ∧ v.toNat ≤ 8 then
    .ok (.byte (Config.fanTable[v.toNat - 1]'(by omega)))
  else .invalidArgument v

/-- The value of one field of a layout: bit i as a boolean (R109), or the four adjacent bits from lsb as an
integer 0..15 (R110). -/
def fieldValue (f : Field) (b : Byte) : FieldValue :=
  match f with
  | .flag _ i => .flag (b.getLsbD i)
  | .count _ lsb => .count (b.extractLsb' lsb 4).toNat

/-- UNPK: the fields of layout `l` in order, or `InvalidArgument` where `l` names no layout (R107, R77). -/
def unpack (layouts : List Layout) (l b : Byte) : CommandOutcome :=
  match layouts[l.toNat]? with
  | some lay => .ok (.fields (lay.fields.map (fun f => fieldValue f b)))
  | none => .invalidArgument l

/-- `cksum`: the sum of five unsigned bytes modulo 256 (R131). -/
def cksum (b0 b1 b2 b3 b4 : Byte) : Byte :=
  BitVec.ofNat 8 ((b0.toNat + b1.toNat + b2.toNat + b3.toNat + b4.toNat) % Config.checksumMod)

/-- The six bytes of a telegram with these fields, offset 0 first (R44, R60). -/
def frameBytes (sender receiver command argument checksum : Byte) : List Byte :=
  [Config.domain, sender, receiver, command, argument, checksum]

/-- The checksum byte of the telegram with these four payload bytes (R65). -/
def telegramChecksum (sender receiver command argument : Byte) : Byte :=
  cksum Config.domain sender receiver command argument

/-- The six bytes of the valid telegram with these four payload bytes (R65, R139, R140). -/
def telegramBytes (sender receiver command argument : Byte) : List Byte :=
  frameBytes sender receiver command argument (telegramChecksum sender receiver command argument)

end Sys2Proof.Machine
end

