-- ==== Sys2Proof/WellFormed.lean ====
section
/-!
DEFINITION. When an instruction is well formed. Every operand byte of every command may have every value
(spec/30_encoding.md R63, R64, R77), so there are two checks. The checksum of a telegram is the sum of its
other bytes (R61, R65). An instruction is spelled by its most specific row of the opcode table, where two rows
share words (R74, R80; notes/assumptions/12.md).
-/

namespace Sys2Proof

/-- The instruction is spelled by the most specific row that its word matches: the command byte of `TG.VAR`
is none of those with a row of their own, and a `TXENC` of the poll marker is written `POLL`. -/
def Instr.mostSpecific : Instr → Bool
  | .tdec _ => true
  | .tenc _ => true
  | .fdec _ => true
  | .fenc _ => true
  | .unpk _ _ => true
  | .cksum _ _ _ _ _ => true
  | .rxsvc => true
  | .txenc _ _ v _ => decide (v ≠ Config.pollMarker)
  | .poll _ _ _ => true
  | .tgVar _ _ c _ _ =>
    decide (c ≠ Config.pollMarker ∧ c ≠ Config.varSuspend ∧ c ≠ Config.varResume ∧ c ≠ Config.varFanspeed)
  | .tgPoll _ _ _ _ => true
  | .tgSuspend _ _ _ _ => true
  | .tgResume _ _ _ _ => true
  | .tgFanspeed _ _ _ _ => true

/-- The checksum byte of a telegram is right (R65); a command has none. -/
def Instr.checksumRight : Instr → Bool
  | .tdec _ => true
  | .tenc _ => true
  | .fdec _ => true
  | .fenc _ => true
  | .unpk _ _ => true
  | .cksum _ _ _ _ _ => true
  | .rxsvc => true
  | .txenc _ _ _ _ => true
  | .poll _ _ _ => true
  | .tgVar s r c a k => decide (k = Machine.telegramChecksum s r c a)
  | .tgPoll s r v k => decide (k = Machine.telegramChecksum s r Config.pollMarker v)
  | .tgSuspend s r a k => decide (k = Machine.telegramChecksum s r Config.varSuspend a)
  | .tgResume s r a k => decide (k = Machine.telegramChecksum s r Config.varResume a)
  | .tgFanspeed s r a k => decide (k = Machine.telegramChecksum s r Config.varFanspeed a)

/-- Both checks. A telegram whose checksum is wrong is not well formed and still runs: the framer reports it
(R133). -/
def Instr.wellFormed (i : Instr) : Bool := i.mostSpecific && i.checksumRight

/-- The spelling of an instruction by its most specific row: itself where it is so spelled already. -/
def Instr.respell : Instr → Instr
  | .tdec b => .tdec b
  | .tenc t => .tenc t
  | .fdec b => .fdec b
  | .fenc v => .fenc v
  | .unpk l b => .unpk l b
  | .cksum b0 b1 b2 b3 b4 => .cksum b0 b1 b2 b3 b4
  | .rxsvc => .rxsvc
  | .txenc s r v a => if v = Config.pollMarker then .poll s r a else .txenc s r v a
  | .poll s r v => .poll s r v
  | .tgVar s r c a k =>
    if c = Config.pollMarker then .tgPoll s r a k
    else if c = Config.varSuspend then .tgSuspend s r a k
    else if c = Config.varResume then .tgResume s r a k
    else if c = Config.varFanspeed then .tgFanspeed s r a k
    else .tgVar s r c a k
  | .tgPoll s r v k => .tgPoll s r v k
  | .tgSuspend s r a k => .tgSuspend s r a k
  | .tgResume s r a k => .tgResume s r a k
  | .tgFanspeed s r a k => .tgFanspeed s r a k

end Sys2Proof
end

