-- ==== Sys2Proof/Decode.lean ====
section
/-!
DEFINITION. The decoder, total on every word and rejecting by name, and after it the encoder, both from the
encoding tables of spec/30_encoding.md (R61, R67 to R74, R78, R80) and spec/opcode_table.json.
-/

namespace Sys2Proof

/-- Why a word is no instruction. -/
inductive DecodeError where
  /-- The op is 8..15 and selects no command (R78). -/
  | reservedCommandCode (op : Nat)
  /-- The first byte is not the domain byte (R62, R75). -/
  | notATelegram (domain : Byte)
  deriving DecidableEq, Repr

/-- Field `op`, bits 43:40 of a command word (R71). -/
def opField (w : CommandWord) : BitVec 4 := w.extractLsb' 40 4

/-- Operand byte `p0`, bits 39:32 (R71). -/
def p0Field (w : CommandWord) : Byte := w.extractLsb' 32 8

/-- Operand byte `p1`, bits 31:24 (R71). -/
def p1Field (w : CommandWord) : Byte := w.extractLsb' 24 8

/-- Operand byte `p2`, bits 23:16 (R71). -/
def p2Field (w : CommandWord) : Byte := w.extractLsb' 16 8

/-- Operand byte `p3`, bits 15:8 (R71). -/
def p3Field (w : CommandWord) : Byte := w.extractLsb' 8 8

/-- Operand byte `p4`, bits 7:0 (R71). -/
def p4Field (w : CommandWord) : Byte := w.extractLsb' 0 8

/-- A `TXENC` word by its most specific row: variable `0x00` is the pseudo-instruction `POLL` (R80). -/
def decodeTransmit (sender receiver varcode value : Byte) : Instr :=
  if varcode = Config.pollMarker then .poll sender receiver value
  else .txenc sender receiver varcode value

/-- A command word: `op` alone selects the command (R70, R71), each command reads the operand bytes of R72 and
ignores the others (R78). -/
def decodeCommand (w : CommandWord) : Except DecodeError Instr :=
  match (opField w).toNat with
  | 0 => .ok (.tdec (p0Field w))
  | 1 => .ok (.tenc (p0Field w))
  | 2 => .ok (.fdec (p0Field w))
  | 3 => .ok (.fenc (p0Field w))
  | 4 => .ok (.unpk (p0Field w) (p1Field w))
  | 5 => .ok (.cksum (p0Field w) (p1Field w) (p2Field w) (p3Field w) (p4Field w))
  | 6 => .ok .rxsvc
  | 7 => .ok (decodeTransmit (p0Field w) (p1Field w) (p2Field w) (p3Field w))
  | op => .error (.reservedCommandCode op)

/-- Byte offset 0 of a telegram word, bits 47:40 (R61). -/
def domainField (w : TelegramWord) : Byte := w.extractLsb' 40 8

/-- Byte offset 1, bits 39:32 (R61). -/
def senderField (w : TelegramWord) : Byte := w.extractLsb' 32 8

/-- Byte offset 2, bits 31:24 (R61). -/
def receiverField (w : TelegramWord) : Byte := w.extractLsb' 24 8

/-- Byte offset 3, bits 23:16 (R61). -/
def commandField (w : TelegramWord) : Byte := w.extractLsb' 16 8

/-- Byte offset 4, bits 15:8 (R61). -/
def argumentField (w : TelegramWord) : Byte := w.extractLsb' 8 8

/-- Byte offset 5, bits 7:0 (R61). -/
def checksumField (w : TelegramWord) : Byte := w.extractLsb' 0 8

/-- The class of a telegram by its command byte, the longer mask first (R67 to R69, R74). -/
def classifyTelegram (sender receiver command argument checksum : Byte) : Instr :=
  if command = Config.pollMarker then .tgPoll sender receiver argument checksum
  else if command = Config.varSuspend then .tgSuspend sender receiver argument checksum
  else if command = Config.varResume then .tgResume sender receiver argument checksum
  else if command = Config.varFanspeed then .tgFanspeed sender receiver argument checksum
  else .tgVar sender receiver command argument checksum

/-- A telegram word: the first byte must be the domain byte (R62). The checksum is an operand, right or wrong:
a telegram with a wrong one is framed and reported (R133; notes/assumptions/29.md). -/
def decodeTelegram (w : TelegramWord) : Except DecodeError Instr :=
  if domainField w = Config.domain then
    .ok (classifyTelegram (senderField w) (receiverField w) (commandField w) (argumentField w) (checksumField w))
  else .error (.notATelegram (domainField w))

/-- The decoder of both encodings. -/
def decode : CodeWord → Except DecodeError Instr
  | .command w => decodeCommand w
  | .telegram w => decodeTelegram w

/-- A command word from its fields (R71). -/
def commandWord (op : BitVec 4) (p0 p1 p2 p3 p4 : Byte) : CommandWord :=
  op ++ p0 ++ p1 ++ p2 ++ p3 ++ p4

/-- A telegram word from its six bytes (R61). -/
def telegramWord (domain sender receiver command argument checksum : Byte) : TelegramWord :=
  domain ++ sender ++ receiver ++ command ++ argument ++ checksum

/-- The six bytes of a telegram word, offset 0 first (R61). -/
def telegramWordBytes (w : TelegramWord) : List Byte :=
  [domainField w, senderField w, receiverField w, commandField w, argumentField w, checksumField w]

/-- The encoder: the operand bytes a command does not use are zero (R72, R78). -/
def encode : Instr → CodeWord
  | .tdec b => .command (commandWord 0x0 b 0 0 0 0)
  | .tenc t => .command (commandWord 0x1 t 0 0 0 0)
  | .fdec b => .command (commandWord 0x2 b 0 0 0 0)
  | .fenc v => .command (commandWord 0x3 v 0 0 0 0)
  | .unpk l b => .command (commandWord 0x4 l b 0 0 0)
  | .cksum b0 b1 b2 b3 b4 => .command (commandWord 0x5 b0 b1 b2 b3 b4)
  | .rxsvc => .command (commandWord 0x6 0 0 0 0 0)
  | .txenc s r v a => .command (commandWord 0x7 s r v a 0)
  | .poll s r v => .command (commandWord 0x7 s r Config.pollMarker v 0)
  | .tgVar s r c a k => .telegram (telegramWord Config.domain s r c a k)
  | .tgPoll s r v k => .telegram (telegramWord Config.domain s r Config.pollMarker v k)
  | .tgSuspend s r a k => .telegram (telegramWord Config.domain s r Config.varSuspend a k)
  | .tgResume s r a k => .telegram (telegramWord Config.domain s r Config.varResume a k)
  | .tgFanspeed s r a k => .telegram (telegramWord Config.domain s r Config.varFanspeed a k)

/-- The word of the opcode table with `nbits` bits whose bits are `w`. The table has 44-bit command rows and
48-bit telegram rows. In whole bytes both have 48 bits, and their words then overlap: a first byte of `0x01`
with a tail that is not all zero is read as a telegram, a first byte below `0x10` otherwise as a command word
under four zero bits. DESIGN CHOICE for the table's numbering alone, notes/assumptions/13.md: on the block the
two encodings come in at different ports. -/
def CodeWord.ofTable (nbits w : Nat) : CodeWord :=
  if nbits ≤ 44 then .command (BitVec.ofNat 44 w)
  else if w / 2 ^ 40 = 1 ∧ w % 2 ^ 32 ≠ 0 then .telegram (BitVec.ofNat 48 w)
  else if w < 2 ^ 44 then .command (BitVec.ofNat 44 w)
  else .telegram (BitVec.ofNat 48 w)

/-- The instruction the decoder reads from a word numbered as the opcode table numbers it. -/
def decodeTableWord (nbits w : Nat) : Option Instr :=
  match decode (CodeWord.ofTable nbits w) with
  | .ok i => some i
  | .error _ => none

end Sys2Proof
end

