-- ==== Sys2Proof/Machine/Flags.lean ====
section
/-!
DEFINITION. What the block has in place of flags (spec/10_state.md R24): the status code of an outcome
(spec/60_exceptions.md R160), which outcomes the source classes as errors (R161 to R165), and the
notification a host wrapper makes of an outcome (R170 to R172). None of these is state.
-/

namespace Sys2Proof.Machine

/-- The numeric status of an outcome, 0 to 5 (R160; the numbers are the spec's own, D7). -/
def CommandOutcome.code : CommandOutcome → Nat
  | .ok _ => 0
  | .telegram _ _ _ _ => 1
  | .noFrame => 2
  | .unexpectedDomainByte _ => 3
  | .checksumMismatch _ _ _ _ _ => 4
  | .invalidArgument _ => 5

/-- The three error classes of the block; `OK` and `Telegram` are the normal outcomes and `NoFrame` is not an
error (R161 to R165). -/
def CommandOutcome.isError : CommandOutcome → Bool
  | .ok _ => false
  | .telegram _ _ _ _ => false
  | .noFrame => false
  | .unexpectedDomainByte _ => true
  | .checksumMismatch _ _ _ _ _ => true
  | .invalidArgument _ => true

/-- The entries of the notification interface that carry what the block produces (R170 to R172). -/
inductive Notification where
  | telegramReceived (sender receiver command arg : Byte)
  | checksumFailure (sender receiver command arg checksum : Byte)
  | unexpectedByte (byte : Byte)
  deriving DecidableEq, Repr

/-- The notification that corresponds to an outcome, `none` where there is none (R170 to R172, R162). -/
def CommandOutcome.notification : CommandOutcome → Option Notification
  | .ok _ => none
  | .telegram s r c a => some (.telegramReceived s r c a)
  | .noFrame => none
  | .unexpectedDomainByte b => some (.unexpectedByte b)
  | .checksumMismatch s r c a k => some (.checksumFailure s r c a k)
  | .invalidArgument _ => none

/-- The number of bytes a receive service that returns this outcome removes from `rxq` (R134). -/
def CommandOutcome.consumed : CommandOutcome → Nat
  | .ok _ => 0
  | .telegram _ _ _ _ => 6
  | .noFrame => 0
  | .unexpectedDomainByte _ => 1
  | .checksumMismatch _ _ _ _ _ => 6
  | .invalidArgument _ => 0

end Sys2Proof.Machine
end

