-- ==== Sys2Proof/Machine/Ops.lean ====
section
/-!
DEFINITION. The operations every meaning is made of: the stream primitives (spec/20_memory.md R48 to R50), the
frame register (spec/10_state.md R22), how a command ends (spec/60_exceptions.md R160, R167), the receive
service and the transmission over them (spec/41_telegram_codec.md R133, R140), and the fetch of the next event.
The block takes no exception: an error is an outcome that `State.finish` or `State.respond` hands to the host,
and nothing is saved, switched or entered (R167, R169).
-/

namespace Sys2Proof.Machine

/-- The answer of one step of this machine. -/
abbrev Answer := Host.Outcome State Fault Refusal

/-- Continue with the next state; a fault or a refusal ends the command. -/
def andThen (a : Answer) (k : State → Answer) : Answer :=
  match a with
  | .next s => k s
  | .fault f => .fault f
  | .refused r => .refused r

/-! ### The updates of the state -/

/-- A pure command ends: the outcome goes to the host and no state of the block changes (R100, R130). -/
def State.respond (o : CommandOutcome) (s : State) : State := { s with returned := some o }

/-- A command that used the frame register ends: `F` holds no value and the phase is Idle (R22, R144, R167). -/
def State.finish (o : CommandOutcome) (s : State) : State :=
  { s with returned := some o, frame := Frame.empty, phase := .idle }

/-- Idle to Decoding (R144). -/
def State.enterDecoding (s : State) : State := { s with phase := .decoding }

/-- The receive queue with these bytes in it. -/
def State.setRxq (bs : List Byte) (s : State) : State := { s with rxq := bs }

/-- `TxWrite(s)`: append to the transmit log (R49). -/
def State.txWrite (bs : List Byte) (s : State) : State := { s with txq := s.txq ++ bs }

/-- `F[k]`: the byte the frame register holds, if it holds one (R22). -/
def Frame.get (f : Frame) : FrameField → Option Byte
  | .domain => f.domain
  | .sender => f.sender
  | .receiver => f.receiver
  | .command => f.command
  | .argument => f.argument
  | .checksum => f.checksum

/-- `F[k] <- b` (R22). -/
def Frame.set (f : Frame) (k : FrameField) (b : Byte) : Frame :=
  match k with
  | .domain => { f with domain := some b }
  | .sender => { f with sender := some b }
  | .receiver => { f with receiver := some b }
  | .command => { f with command := some b }
  | .argument => { f with argument := some b }
  | .checksum => { f with checksum := some b }

/-- `F[k] <- b` on the state (R22). -/
def State.writeF (k : FrameField) (b : Byte) (s : State) : State := { s with frame := s.frame.set k b }

/-- The state after a step that returns no outcome. -/
def State.silent (s : State) : State := { s with returned := none }

/-! ### Stream and frame primitives -/

/-- `RxAvail()`: the number of bytes pending (R48). -/
def rxAvail (s : State) : Nat := s.rxq.length

/-- `F[k] <- RxPop()`: the head byte leaves the queue and goes into the frame register (R48, R22). -/
def popInto (k : FrameField) (s : State) : Answer :=
  match s.rxq with
  | [] => .fault .rxUnderflow
  | b :: rest => .next ((s.setRxq rest).writeF k b)

/-- A read of `F[k]`, used by the rest of the command. Reading a byte that holds no value is a fault (U7). -/
def readF (k : FrameField) (s : State) (use : Byte → Answer) : Answer :=
  match s.frame.get k with
  | none => .fault (.frameReadBeforeWrite k)
  | some b => use b

/-- Whether `n` more bytes fit in the receive queue (R20, R50). -/
def State.roomFor (n : Nat) (s : State) : Bool :=
  match s.params.rxDepth with
  | none => true
  | some d => decide (s.rxq.length + n ≤ d)

/-- `RxArrive(b)`: the transport appends one byte, if there is room (R50). The spec gives the arrival of a byte
that finds no room no meaning (R201, U4: refuse). -/
def rxArrive (b : Byte) (s : State) : Answer :=
  if s.roomFor 1 then .next (s.setRxq (s.rxq ++ [b])).silent else .refused .rxOverflow

/-- Several `RxArrive` steps in the order of the bytes (R79, `.rx b b ...`). -/
def rxArriveAll : List Byte → State → Answer
  | [], s => .next s
  | b :: bs, s => andThen (rxArrive b s) (rxArriveAll bs)

/-! ### The receive service (R133) -/

/-- The checksum over the five bytes in the frame register against the sixth, and the outcome (R133). -/
def verifyFrame (s : State) : Answer :=
  readF .domain s fun d => readF .sender s fun sn => readF .receiver s fun rc =>
  readF .command s fun c => readF .argument s fun a => readF .checksum s fun k =>
  if cksum d sn rc c a ≠ k then .next (s.finish (.checksumMismatch sn rc c a k))
  else .next (s.finish (.telegram sn rc c a))

/-- The head byte is in the frame register and is the domain byte: the other five follow unconditionally
(R133). -/
def decodeRest (s : State) : Answer :=
  andThen (popInto .sender s) fun s =>
  andThen (popInto .receiver s) fun s =>
  andThen (popInto .command s) fun s =>
  andThen (popInto .argument s) fun s =>
  andThen (popInto .checksum s) verifyFrame

/-- One receive service, in the order of R133's pseudocode: the count, the domain byte, the checksum (R166). -/
def rxService (s : State) : Answer :=
  if rxAvail s < Config.frameLen then .next (s.finish .noFrame)
  else
    andThen (popInto .domain s.enterDecoding) fun s =>
    readF .domain s fun d =>
    if d ≠ Config.domain then .next (s.finish (.unexpectedDomainByte d))
    else decodeRest s

/-- Bytes reach the block on the wire: they arrive in their order (R44, R50) and the host issues one receive
service (R133). notes/assumptions/11.md. -/
def receiveBytes (bs : List Byte) (s : State) : Answer := andThen (rxArriveAll bs s) rxService

/-- A telegram with these fields reaches the block on the wire. -/
def receiveTelegram (sender receiver command argument checksum : Byte) (s : State) : Answer :=
  receiveBytes (frameBytes sender receiver command argument checksum) s

/-! ### The transmission (R140) -/

/-- `TxWrite` of the six frame bytes, which are also the result (R140). -/
def writeFrame (s : State) : Answer :=
  readF .domain s fun d => readF .sender s fun sn => readF .receiver s fun rc =>
  readF .command s fun c => readF .argument s fun a => readF .checksum s fun k =>
  .next ((s.txWrite [d, sn, rc, c, a, k]).finish (.ok (.bytes [d, sn, rc, c, a, k])))

/-- The frame register is filled from the operands, its checksum computed from the frame bytes, and the six
bytes are written (R140). -/
def transmit (sender receiver varcode value : Byte) (s : State) : Answer :=
  let s := ((((s.writeF .domain Config.domain).writeF .sender sender).writeF .receiver receiver).writeF
    .command varcode).writeF .argument value
  readF .domain s fun d => readF .sender s fun sn => readF .receiver s fun rc =>
  readF .command s fun c => readF .argument s fun a =>
  writeFrame (s.writeF .checksum (cksum d sn rc c a))

/-! ### The next event -/

/-- A restart of the block with this content of the transport's buffer (R190, R191): nothing of the old state
is kept but the open parameters, which are constants, and what the outside world will do next. A content that
does not fit the queue is refused (R20). notes/assumptions/24.md. -/
def restart (rxqInit : List Byte) (s : State) : Answer :=
  let t := { State.resetWith s.params [] with inputs := s.inputs }
  if t.roomFor rxqInit.length then .next (t.setRxq rxqInit) else .refused .rxOverflow

/-- The next event of the outside world, a word decoded. A command word that decodes to no instruction has an op
that selects no command (R78); six bytes on the wire that decode to none are received all the same, for the framer
to report (R75). -/
def fetch (s : State) : Fetched :=
  match s.inputs with
  | [] => .idle
  | .arrive b :: rest => .arrival b { s with inputs := rest }
  | .restart init :: rest => .restart init { s with inputs := rest }
  | .word (.command w) :: rest =>
    match decode (.command w) with
    | .ok i => .instruction i { s with inputs := rest }
    | .error _ => .rejected (.reservedCommandCode (opField w).toNat)
  | .word (.telegram w) :: rest =>
    match decode (.telegram w) with
    | .ok i => .instruction i { s with inputs := rest }
    | .error _ => .strayFrame w { s with inputs := rest }

end Sys2Proof.Machine
end

