-- ==== Sys2Proof/Machine/TelegramClasses.lean ====
section
/-!
DEFINITION. The meanings of the five telegram classes (spec/30_encoding.md R67 to R69, R74): the telegram is
received. The block does not tell the classes apart: it frames every one by the same rule (R133, R136).
notes/assumptions/11.md.
-/

namespace Sys2Proof.Machine

/-- TG.VAR: a telegram with an ordinary variable code is received (R74). -/
def execTgVar (sender receiver command argument checksum : Byte) (s : State) : Answer :=
  receiveTelegram sender receiver command argument checksum s

/-- TG.POLL: a poll request is received (R67). -/
def execTgPoll (sender receiver varcode checksum : Byte) (s : State) : Answer :=
  receiveTelegram sender receiver Config.pollMarker varcode checksum s

/-- TG.SUSPEND: a suspend broadcast is received; the suspend state it sets is the excluded engine's (R68). -/
def execTgSuspend (sender receiver argument checksum : Byte) (s : State) : Answer :=
  receiveTelegram sender receiver Config.varSuspend argument checksum s

/-- TG.RESUME: a resume broadcast is received (R69). -/
def execTgResume (sender receiver argument checksum : Byte) (s : State) : Answer :=
  receiveTelegram sender receiver Config.varResume argument checksum s

/-- TG.FANSPEED: a fan-speed telegram is received; its argument is not interpreted (R74, R136). -/
def execTgFanspeed (sender receiver argument checksum : Byte) (s : State) : Answer :=
  receiveTelegram sender receiver Config.varFanspeed argument checksum s

end Sys2Proof.Machine
end

