-- ==== Sys2Proof/Machine/TelegramCodec.lean ====
section
/-!
DEFINITION. The meanings of the telegram codec commands (spec/41_telegram_codec.md): CKSUM, RXSVC, TXENC, and
of the pseudo-instruction POLL (spec/30_encoding.md R80).
-/

namespace Sys2Proof.Machine

/-- CKSUM: the checksum of five bytes; pure (R130, R132). -/
def execCksum (b0 b1 b2 b3 b4 : Byte) (s : State) : Answer :=
  .next (s.respond (.ok (.byte (cksum b0 b1 b2 b3 b4))))

/-- RXSVC: one receive service (R133). -/
def execRxsvc (s : State) : Answer := rxService s

/-- TXENC: build the six bytes and append them to the transmit log (R140). -/
def execTxenc (sender receiver varcode value : Byte) (s : State) : Answer :=
  transmit sender receiver varcode value s

/-- POLL s, r, v: `TXENC s, r, 0x00, v` (R80). -/
def execPoll (sender receiver varcode : Byte) (s : State) : Answer :=
  transmit sender receiver Config.pollMarker varcode s

end Sys2Proof.Machine
end

