-- ==== Sys2Proof/Machine/ValueCodec.lean ====
section
/-!
DEFINITION. The meanings of the value codec commands (spec/40_value_codec.md): TDEC, TENC, FDEC, FENC, UNPK.
All five are pure (R100).
-/

namespace Sys2Proof.Machine

/-- TDEC: the temperature of a wire byte (R101). -/
def execTdec (b : Byte) (s : State) : Answer :=
  .next (s.respond (.ok (.temp (tempAt s.params.tempTable b))))

/-- TENC: the first wire byte whose temperature is at or above `s8(t)`, else the byte 100 (R102, R73). -/
def execTenc (t : Byte) (s : State) : Answer :=
  .next (s.respond (.ok (.byte (firstAtOrAbove s.params.tempTable (s8 t)))))

/-- FDEC: the fan speed of a wire byte, 0 for an unrecognised one (R104). -/
def execFdec (b : Byte) (s : State) : Answer :=
  .next (s.respond (.ok (.speed (speedOf b))))

/-- FENC: the wire byte of a fan speed 1..8; any other operand is `InvalidArgument` (R105). -/
def execFenc (v : Byte) (s : State) : Answer :=
  .next (s.respond (fanWireByte v))

/-- UNPK: the fields of byte `b` by layout number `l` (R107). -/
def execUnpk (l b : Byte) (s : State) : Answer :=
  .next (s.respond (unpack s.params.layouts l b))

end Sys2Proof.Machine
end

