-- ==== Sys2Proof/Machine/Dispatch.lean ====
section
/-! DEFINITION. The meaning of every instruction: one arm per row of spec/opcode_table.json. -/

namespace Sys2Proof.Machine

/-- The effect of an instruction on a state. -/
def exec (i : Instr) (s : State) : Host.Outcome State Fault Refusal :=
  match i with
  | .tdec b => Sys2Proof.Machine.execTdec b s
  | .tenc t => Sys2Proof.Machine.execTenc t s
  | .fdec b => Sys2Proof.Machine.execFdec b s
  | .fenc v => Sys2Proof.Machine.execFenc v s
  | .unpk l b => Sys2Proof.Machine.execUnpk l b s
  | .cksum b0 b1 b2 b3 b4 => Sys2Proof.Machine.execCksum b0 b1 b2 b3 b4 s
  | .rxsvc => Sys2Proof.Machine.execRxsvc s
  | .txenc sn rc v a => Sys2Proof.Machine.execTxenc sn rc v a s
  | .poll sn rc v => Sys2Proof.Machine.execPoll sn rc v s
  | .tgVar sn rc c a k => Sys2Proof.Machine.execTgVar sn rc c a k s
  | .tgPoll sn rc v k => Sys2Proof.Machine.execTgPoll sn rc v k s
  | .tgSuspend sn rc a k => Sys2Proof.Machine.execTgSuspend sn rc a k s
  | .tgResume sn rc a k => Sys2Proof.Machine.execTgResume sn rc a k s
  | .tgFanspeed sn rc a k => Sys2Proof.Machine.execTgFanspeed sn rc a k s

end Sys2Proof.Machine
end

