-- ==== Sys2Proof/Machine/Step.lean ====
section
/-!
DEFINITION. One step: the next event of the outside world takes place (spec/00_scope.md R13, R14). The block
does nothing between commands (spec/60_exceptions.md R173, spec/70_reset_and_hazards.md R194).
-/

namespace Sys2Proof.Machine

/-- One step of the machine. With nothing asked for, the step changes no state and returns no outcome
(notes/assumptions/23.md). -/
def step (s : State) : Host.Outcome State Fault Refusal :=
  match fetch s with
  | .idle => .next s.silent
  | .arrival b s => rxArrive b s
  | .restart init s => restart init s
  | .instruction i s => exec i s
  | .strayFrame w s => receiveBytes (telegramWordBytes w) s
  | .rejected r => .refused r

/-- The state whose very next step runs the word of the opcode table: the word is the next event. This stands
for the host's choice of a command, or for the telegram the transport delivers (R14; notes/assumptions/7.md). -/
def State.withFetchWord (s : State) (nbits w : Nat) : State :=
  { s with inputs := .word (CodeWord.ofTable nbits w) :: s.inputs }

end Sys2Proof.Machine
end

