-- ==== Sys2Proof/Safety.lean ====
section
/-!
DEFINITION. The terms in which claims about the block are made: the properties the source gives of the
temperature table (spec/10_state.md R26), a valid telegram (spec/41_telegram_codec.md R139), what holds between
commands (R22, R28), what the transmit log holds (R141), and runs of several commands.
-/

namespace Sys2Proof.Machine

/-- Property (a) of R26: the table is non-decreasing. -/
def Nondecreasing (table : TempTable) : Prop := ∀ i j : Byte, i ≤ j → tempAt table i ≤ tempAt table j

/-- Property (c) of R26: the largest value of the table is 100. -/
def Saturates (table : TempTable) : Prop := (∀ i : Byte, tempAt table i ≤ 100) ∧ ∃ i : Byte, tempAt table i = 100

/-- A byte sequence of length 6 is a valid telegram (R139): `t[0] = 0x01` and `t[5] = cksum(t[0..4])`. -/
def ValidTelegram (t : List Byte) : Prop :=
  ∃ t0 t1 t2 t3 t4 t5 : Byte, t = [t0, t1, t2, t3, t4, t5] ∧ t0 = 0x01 ∧ t5 = cksum t0 t1 t2 t3 t4

/-- Between commands `F` holds no value and the phase is Idle (R22, R28). -/
def State.Settled (s : State) : Prop := s.frame = Frame.empty ∧ s.phase = .idle

/-- The receive queue is no longer than its depth (R20, R29). -/
def State.WithinDepth (s : State) : Prop := ∀ d, s.params.rxDepth = some d → s.rxq.length ≤ d

/-- The payload of a telegram: sender, receiver, command, argument (R135). -/
structure Payload where
  sender : Byte
  receiver : Byte
  command : Byte
  argument : Byte
  deriving DecidableEq, Repr

/-- The six bytes of the valid telegram with this payload (R139). -/
def Payload.bytes (p : Payload) : List Byte := telegramBytes p.sender p.receiver p.command p.argument

/-- The outcome that delivers this payload (R135). -/
def Payload.delivered (p : Payload) : CommandOutcome := .telegram p.sender p.receiver p.command p.argument

/-- The transmit log is whole valid telegrams, one after another (R49, R141). -/
def State.TransmitsWholeTelegrams (s : State) : Prop := ∃ ps : List Payload, s.txq = ps.flatMap Payload.bytes

/-- `k` steps, ended early by a fault or a refusal. -/
def stepMany : Nat → State → Answer
  | 0, s => .next s
  | k + 1, s => andThen (step s) (stepMany k)

/-- The commands one after another, with nothing between them, and the outcomes they return in order; `none` if
one of them stops or returns no outcome. -/
def runCommands : List Instr → State → Option (List CommandOutcome × State)
  | [], s => some ([], s)
  | i :: is, s =>
    match exec i s with
    | .next t =>
      match t.returned, runCommands is t with
      | some o, some (os, u) => some (o :: os, u)
      | _, _ => none
    | .fault _ => none
    | .refused _ => none

end Sys2Proof.Machine

namespace Sys2Proof

/-- An instruction that the host presents at the command port, not a telegram on the wire. -/
def Instr.isCommand : Instr → Bool
  | .tdec _ => true
  | .tenc _ => true
  | .fdec _ => true
  | .fenc _ => true
  | .unpk _ _ => true
  | .cksum _ _ _ _ _ => true
  | .rxsvc => true
  | .txenc _ _ _ _ => true
  | .poll _ _ _ => true
  | .tgVar _ _ _ _ _ => false
  | .tgPoll _ _ _ _ => false
  | .tgSuspend _ _ _ _ => false
  | .tgResume _ _ _ _ => false
  | .tgFanspeed _ _ _ _ => false

/-- An instruction that transmits: TXENC, and POLL, which is a TXENC (R130, R80). -/
def Instr.transmits : Instr → Bool
  | .txenc _ _ _ _ => true
  | .poll _ _ _ => true
  | .tdec _ => false
  | .tenc _ => false
  | .fdec _ => false
  | .fenc _ => false
  | .unpk _ _ => false
  | .cksum _ _ _ _ _ => false
  | .rxsvc => false
  | .tgVar _ _ _ _ _ => false
  | .tgPoll _ _ _ _ => false
  | .tgSuspend _ _ _ _ => false
  | .tgResume _ _ _ _ => false
  | .tgFanspeed _ _ _ _ => false

end Sys2Proof
end

