-- ==== Sys2Proof/Certificates/Slice0/Obligations.lean ====
section
/-!
DEFINITION. The statements about the block that the provers settle. Each docstring names the rule of spec/ it
formalises, or says that it rests on a decision or an inference, and which.
-/

open Sys2Proof Sys2Proof.Machine

/-! ### The value codec (spec/40_value_codec.md) -/

/-- R42 and R101: TDEC returns the entry of the table at its byte, read as two's complement (the representation
is D11, notes/assumptions/16.md), a temperature -128..127; every byte is a valid index and nothing else changes.
Op 0x0 selects it. Under property (a) byte 0 gives the least and byte 255 the greatest entry, and under (c) too
`TDEC 0xFF` gives 100. -/
def Obligations.TdecReturnsTableEntry : Prop :=
  (∀ w : CommandWord, opField w = 0x0 → decode (.command w) = .ok (.tdec (p0Field w))) ∧
  ∀ (s : State) (b : Byte),
    exec (.tdec b) s =
      .next { s with returned := some (.ok (.temp (s.params.tempTable[b.toNat]'b.isLt).toInt)) } ∧
    (-128 ≤ (s.params.tempTable[b.toNat]'b.isLt).toInt ∧ (s.params.tempTable[b.toNat]'b.isLt).toInt ≤ 127) ∧
    (Nondecreasing s.params.tempTable →
      tempAt s.params.tempTable 0x00 ≤ tempAt s.params.tempTable b ∧
      tempAt s.params.tempTable b ≤ tempAt s.params.tempTable 0xFF ∧
      (Saturates s.params.tempTable →
        exec (.tdec 0xFF) s = .next { s with returned := some (.ok (.temp 100)) }))

/-- R102: TENC returns the first index, ascending over all 256 (D10), whose entry is at least the signed operand,
and the byte 100 when no entry is. Op 0x1 selects it. A target at or below entry 0 gives 0; a target above every
entry gives 100; a target strictly between two adjacent entries gives the upper one; `TENC -128` gives 0 for
every table, and `TENC 127` gives 100 for every table whose greatest entry is 100. -/
def Obligations.TencReturnsFirstIndexAtOrAbove : Prop :=
  (∀ w : CommandWord, opField w = 0x1 → decode (.command w) = .ok (.tenc (p0Field w))) ∧
  ∀ (s : State) (t : Byte), ∃ r : Byte,
    exec (.tenc t) s = .next { s with returned := some (.ok (.byte r)) } ∧
    ((∃ i, t.toInt ≤ tempAt s.params.tempTable i) →
      t.toInt ≤ tempAt s.params.tempTable r ∧ ∀ j : Byte, j < r → tempAt s.params.tempTable j < t.toInt) ∧
    ((∀ i, tempAt s.params.tempTable i < t.toInt) → r = 100) ∧
    (t.toInt ≤ tempAt s.params.tempTable 0x00 → r = 0) ∧
    (∀ i : Byte, i ≠ 0 → Nondecreasing s.params.tempTable →
      tempAt s.params.tempTable (i - 1) < t.toInt → t.toInt < tempAt s.params.tempTable i → r = i) ∧
    (t.toInt = -128 → r = 0) ∧
    (Saturates s.params.tempTable → t.toInt = 127 → r = 100)

/-- R103, corrected reading of spec/90_conflicts.md C4, the rule's own inference from R101 and R102: over a
non-decreasing table (a) encoding the temperature of byte i gives the first index of the flat region that holds
i; (b) decoding the encoding of a temperature some entry reaches is at or above it, with equality exactly when
the temperature occurs in the table; (c) the encoding is non-decreasing over such temperatures. The values are
the ones TDEC and TENC return. -/
def Obligations.TdecTencLaws : Prop :=
  ∀ s : State, Nondecreasing s.params.tempTable →
    (∀ i t : Byte, t.toInt = tempAt s.params.tempTable i → ∃ r : Byte,
      exec (.tenc t) s = .next { s with returned := some (.ok (.byte r)) } ∧
      tempAt s.params.tempTable r = tempAt s.params.tempTable i ∧ r ≤ i ∧
      (r = i ↔ i = 0 ∨ tempAt s.params.tempTable (i - 1) < tempAt s.params.tempTable i)) ∧
    (∀ t : Byte, (∃ i, t.toInt ≤ tempAt s.params.tempTable i) → ∃ (r : Byte) (u : Int),
      exec (.tenc t) s = .next { s with returned := some (.ok (.byte r)) } ∧
      exec (.tdec r) s = .next { s with returned := some (.ok (.temp u)) } ∧
      t.toInt ≤ u ∧ (u = t.toInt ↔ ∃ i, tempAt s.params.tempTable i = t.toInt)) ∧
    (∀ (t t' r r' : Byte), t.toInt ≤ t'.toInt → (∃ i, t'.toInt ≤ tempAt s.params.tempTable i) →
      exec (.tenc t) s = .next { s with returned := some (.ok (.byte r)) } →
      exec (.tenc t') s = .next { s with returned := some (.ok (.byte r')) } → r ≤ r')

/-- R104: FDEC returns the index + 1 of the fan-table entry equal to its byte and 0 for every other byte, always
`OK`, and changes nothing else. Op 0x2 selects it. The complete map is the table 01 03 07 0F 1F 3F 7F FF. -/
def Obligations.FdecExactMatch : Prop :=
  (∀ w : CommandWord, opField w = 0x2 → decode (.command w) = .ok (.fdec (p0Field w))) ∧
  ∀ (s : State) (b : Byte), ∃ n : Nat,
    exec (.fdec b) s = .next { s with returned := some (.ok (.speed n)) } ∧
    (b = 0x01 → n = 1) ∧ (b = 0x03 → n = 2) ∧ (b = 0x07 → n = 3) ∧ (b = 0x0F → n = 4) ∧
    (b = 0x1F → n = 5) ∧ (b = 0x3F → n = 6) ∧ (b = 0x7F → n = 7) ∧ (b = 0xFF → n = 8) ∧
    (b ≠ 0x01 ∧ b ≠ 0x03 ∧ b ≠ 0x07 ∧ b ≠ 0x0F ∧ b ≠ 0x1F ∧ b ≠ 0x3F ∧ b ≠ 0x7F ∧ b ≠ 0xFF → n = 0)

/-- R203: FDEC returns 0 for 248 of the 256 bytes, and `FENC 0` is `InvalidArgument`. -/
def Obligations.UnrecognisedSpeedIsNotASpeed : Prop :=
  (∃ speed : Byte → Nat,
    (∀ (s : State) (b : Byte), exec (.fdec b) s = .next { s with returned := some (.ok (.speed (speed b))) }) ∧
    ((List.range 256).filter (fun n => decide (speed (BitVec.ofNat 8 n) = 0))).length = 248) ∧
  ∀ s : State, exec (.fenc 0) s = .next { s with returned := some (.invalidArgument 0) }

/-- R105: FENC returns the fan-table byte of a speed 1..8 and `InvalidArgument` with the operand, read as
unsigned (D12), for every other one; nothing else changes. The outcome outside 1..8 is the source's advice that
the spec follows (D23, notes/assumptions/19.md). Op 0x3 selects it. -/
def Obligations.FencTableOrInvalid : Prop :=
  (∀ w : CommandWord, opField w = 0x3 → decode (.command w) = .ok (.fenc (p0Field w))) ∧
  ∀ (s : State) (v : Byte), ∃ o : CommandOutcome,
    exec (.fenc v) s = .next { s with returned := some o } ∧
    (v = 1 → o = .ok (.byte 0x01)) ∧ (v = 2 → o = .ok (.byte 0x03)) ∧ (v = 3 → o = .ok (.byte 0x07)) ∧
    (v = 4 → o = .ok (.byte 0x0F)) ∧ (v = 5 → o = .ok (.byte 0x1F)) ∧ (v = 6 → o = .ok (.byte 0x3F)) ∧
    (v = 7 → o = .ok (.byte 0x7F)) ∧ (v = 8 → o = .ok (.byte 0xFF)) ∧
    (v.toNat = 0 ∨ 9 ≤ v.toNat → o = .invalidArgument v)

/-- R106, the rule's own inference from R104 and R105: a speed 1..8 comes back from its byte, a byte that decodes
to a speed comes back from that speed, and a byte that decodes to 0 has no way back. -/
def Obligations.FdecFencLaws : Prop :=
  (∀ (s : State) (v : Byte), 1 ≤ v.toNat → v.toNat ≤ 8 → ∃ b : Byte,
    exec (.fenc v) s = .next { s with returned := some (.ok (.byte b)) } ∧
    exec (.fdec b) s = .next { s with returned := some (.ok (.speed v.toNat)) }) ∧
  (∀ (s : State) (b : Byte) (n : Nat),
    exec (.fdec b) s = .next { s with returned := some (.ok (.speed n)) } →
    if n = 0 then exec (.fenc (BitVec.ofNat 8 n)) s = .next { s with returned := some (.invalidArgument 0) }
    else exec (.fenc (BitVec.ofNat 8 n)) s = .next { s with returned := some (.ok (.byte b)) })

/-- R107 to R110 and R77, all decisions of the spec (D18, notes/assumptions/18.md): UNPK returns the fields of
the named layout in order, a flag true exactly when its bit is set and a count the integer of its four adjacent
bits, or `InvalidArgument` with the layout number where that names none; nothing else changes. Op 0x4 selects
it. -/
def Obligations.UnpkReadsLayoutFields : Prop :=
  (∀ w : CommandWord, opField w = 0x4 → decode (.command w) = .ok (.unpk (p0Field w) (p1Field w))) ∧
  ∀ (s : State) (l b : Byte),
    (s.params.layouts.length ≤ l.toNat →
      exec (.unpk l b) s = .next { s with returned := some (.invalidArgument l) }) ∧
    (∀ lay : Layout, s.params.layouts[l.toNat]? = some lay → ∃ vs : List FieldValue,
      exec (.unpk l b) s = .next { s with returned := some (.ok (.fields vs)) } ∧
      vs.length = lay.fields.length ∧
      (∀ (k : Nat) (name : String) (i : Fin 8), lay.fields[k]? = some (.flag name i) →
        vs[k]? = some (.flag (decide (b.toNat / 2 ^ i.val % 2 = 1)))) ∧
      (∀ (k : Nat) (name : String) (lsb : Fin 5), lay.fields[k]? = some (.count name lsb) →
        vs[k]? = some (.count (b.toNat / 2 ^ lsb.val % 16))))

/-- R112 with R109 (D18): layout 0 is `BITS8` in every state, so `UNPK 0, b` returns the eight bits of the byte,
bit 0 first; 0xA5 gives true, false, true, false, false, true, false, true. -/
def Obligations.UnpkBits8 : Prop :=
  ∀ (s : State) (b : Byte),
    exec (.unpk 0 b) s =
      .next { s with returned := some (.ok (.fields
        [.flag b[0], .flag b[1], .flag b[2], .flag b[3], .flag b[4], .flag b[5], .flag b[6], .flag b[7]])) } ∧
    exec (.unpk 0 0xA5) s =
      .next { s with returned := some (.ok (.fields
        [.flag true, .flag false, .flag true, .flag false, .flag false, .flag true, .flag false, .flag true])) }

/-- R100: the five value codec commands read their operands and the constant tables and layouts alone, change no
state, and give the same result for the same operands in every state of the same block. -/
def Obligations.ValueCodecPure : Prop :=
  ∀ (i : Instr) (s t : State),
    ((∃ b, i = .tdec b) ∨ (∃ b, i = .tenc b) ∨ (∃ b, i = .fdec b) ∨ (∃ b, i = .fenc b) ∨ (∃ l b, i = .unpk l b)) →
    s.params = t.params → ∃ o : CommandOutcome,
      exec i s = .next { s with returned := some o } ∧ exec i t = .next { t with returned := some o }

/-! ### The telegram codec (spec/41_telegram_codec.md) -/

/-- R132: CKSUM returns the sum of its five unsigned bytes modulo 256, always `OK`, and changes nothing else. Op
0x5 selects it. All zero gives 0x00, all 0xFF gives 0xFB, and 01 11 20 91 00 gives 0xC3. -/
def Obligations.CksumReturnsSum : Prop :=
  (∀ w : CommandWord, opField w = 0x5 →
    decode (.command w) = .ok (.cksum (p0Field w) (p1Field w) (p2Field w) (p3Field w) (p4Field w))) ∧
  (∀ (s : State) (b0 b1 b2 b3 b4 : Byte), ∃ r : Byte,
    exec (.cksum b0 b1 b2 b3 b4) s = .next { s with returned := some (.ok (.byte r)) } ∧
    r.toNat = (b0.toNat + b1.toNat + b2.toNat + b3.toNat + b4.toNat) % 256) ∧
  (∀ s : State,
    exec (.cksum 0 0 0 0 0) s = .next { s with returned := some (.ok (.byte 0x00)) } ∧
    exec (.cksum 0xFF 0xFF 0xFF 0xFF 0xFF) s = .next { s with returned := some (.ok (.byte 0xFB)) } ∧
    exec (.cksum 0x01 0x11 0x20 0x91 0x00) s = .next { s with returned := some (.ok (.byte 0xC3)) })

/-- R131: reducing after each addition gives the same byte, the result does not depend on the order of the five
bytes, and summing them as signed and reducing gives the same byte (the readings D21 chooses between agree). -/
def Obligations.CksumLaws : Prop :=
  ∀ b0 b1 b2 b3 b4 : Byte,
    cksum b0 b1 b2 b3 b4 = b0 + b1 + b2 + b3 + b4 ∧
    (∀ c0 c1 c2 c3 c4 : Byte, [c0, c1, c2, c3, c4].Perm [b0, b1, b2, b3, b4] →
      cksum c0 c1 c2 c3 c4 = cksum b0 b1 b2 b3 b4) ∧
    ((cksum b0 b1 b2 b3 b4).toNat : Int) = (s8 b0 + s8 b1 + s8 b2 + s8 b3 + s8 b4) % 256

/-- R133: one receive service, for every receive queue: fewer than six bytes pending give `NoFrame`; else a head
byte other than 0x01 is consumed alone and reported; else six bytes are consumed, and the sum of the first five
against the sixth decides between `Telegram` and `ChecksumMismatch`. The fifth byte of the latter's payload is
the received one (D14, notes/assumptions/21.md). The transmit log and the parameters are untouched, and `F` is
empty at the end. Op 0x6 selects it. -/
def Obligations.RxsvcFramesHead : Prop :=
  (∀ w : CommandWord, opField w = 0x6 → decode (.command w) = .ok .rxsvc) ∧
  ∀ s : State,
    (s.rxq.length < 6 →
      exec .rxsvc s = .next { s with returned := some .noFrame, frame := Frame.empty, phase := .idle }) ∧
    (∀ (d : Byte) (rest : List Byte), s.rxq = d :: rest → 5 ≤ rest.length → d ≠ 0x01 →
      exec .rxsvc s = .next { s with rxq := rest, returned := some (.unexpectedDomainByte d),
                                     frame := Frame.empty, phase := .idle }) ∧
    (∀ (sn rc c a k : Byte) (rest : List Byte), s.rxq = [0x01, sn, rc, c, a, k] ++ rest →
      (k.toNat = (1 + sn.toNat + rc.toNat + c.toNat + a.toNat) % 256 →
        exec .rxsvc s = .next { s with rxq := rest, returned := some (.telegram sn rc c a),
                                       frame := Frame.empty, phase := .idle }) ∧
      (k.toNat ≠ (1 + sn.toNat + rc.toNat + c.toNat + a.toNat) % 256 →
        exec .rxsvc s = .next { s with rxq := rest, returned := some (.checksumMismatch sn rc c a k),
                                       frame := Frame.empty, phase := .idle }))

/-- R134: a service removes from the head of the queue exactly 0, 1 or 6 bytes, by its outcome, and no other
command removes any. -/
def Obligations.RxsvcConsumption : Prop :=
  (∀ s : State, ∃ (t : State) (o : CommandOutcome) (n : Nat),
    exec .rxsvc s = .next t ∧ t.returned = some o ∧ n ≤ s.rxq.length ∧ t.rxq = s.rxq.drop n ∧
    ((o = .noFrame ∧ n = 0) ∨ ((∃ b, o = .unexpectedDomainByte b) ∧ n = 1) ∨
     ((∃ sn rc c a k, o = .checksumMismatch sn rc c a k) ∧ n = 6) ∨
     ((∃ sn rc c a, o = .telegram sn rc c a) ∧ n = 6))) ∧
  (∀ (i : Instr) (s : State), i.isCommand = true → i ≠ .rxsvc →
    ∃ t : State, exec i s = .next t ∧ t.rxq = s.rxq)

/-- R75: a head byte that is not 0x01, with six bytes pending, is not a telegram start, and all 255 values of it
are treated alike: it alone is consumed and reported. -/
def Obligations.IllegalTelegramStart : Prop :=
  ∀ (s : State) (d : Byte) (rest : List Byte), s.rxq = d :: rest → 5 ≤ rest.length → d ≠ 0x01 →
    exec .rxsvc s = .next { s with rxq := rest, returned := some (.unexpectedDomainByte d),
                                   frame := Frame.empty, phase := .idle }

/-- R166: the fixed order of the tests of RXSVC. A short queue reports `NoFrame` whatever its head; six bytes
under a bad first byte report that byte whatever the other bytes are, right checksum or wrong; the checksum is
reported only under the domain byte. -/
def Obligations.RxsvcPriority : Prop :=
  ∀ (s t : State), exec .rxsvc s = .next t →
    (s.rxq.length < 6 ↔ t.returned = some .noFrame) ∧
    (∀ b : Byte, t.returned = some (.unexpectedDomainByte b) ↔
      6 ≤ s.rxq.length ∧ s.rxq.head? = some b ∧ b ≠ 0x01) ∧
    ((∃ sn rc c a k, t.returned = some (.checksumMismatch sn rc c a k)) ↔
      6 ≤ s.rxq.length ∧ s.rxq.head? = some 0x01 ∧ ¬ ValidTelegram (s.rxq.take 6)) ∧
    ((∃ sn rc c a, t.returned = some (.telegram sn rc c a)) ↔ ValidTelegram (s.rxq.take 6))

/-- R139, the rule's own inference from R131 and R133: with six bytes `t` at the head of the queue the service
returns `Telegram` with the four payload bytes and leaves the rest if and only if `t` is valid; and the valid
telegrams are one for each choice of the four payload bytes. -/
def Obligations.TelegramIffValid : Prop :=
  (∀ (s : State) (t0 t1 t2 t3 t4 t5 : Byte) (rest : List Byte), s.rxq = [t0, t1, t2, t3, t4, t5] ++ rest →
    (exec .rxsvc s = .next { s with rxq := rest, returned := some (.telegram t1 t2 t3 t4),
                                    frame := Frame.empty, phase := .idle } ↔
      ValidTelegram [t0, t1, t2, t3, t4, t5])) ∧
  (∀ t : List Byte, ValidTelegram t ↔ ∃ p : Payload, p.bytes = t) ∧
  (∀ p q : Payload, p.bytes = q.bytes → p = q)

/-- R137: one service delivers at most one telegram. Any number of good telegrams pending, with anything after
them, are delivered one a service in the order of their bytes, and what follows them is left; once fewer than
six bytes are left a service returns at once and delivers nothing. -/
def Obligations.OneTelegramPerService : Prop :=
  ∀ (ps : List Payload) (tail : List Byte) (s : State), s.rxq = ps.flatMap Payload.bytes ++ tail → s.Settled →
    (∃ t : State, runCommands (List.replicate ps.length .rxsvc) s = some (ps.map Payload.delivered, t) ∧
      t.rxq = tail ∧ t.txq = s.txq ∧ t.params = s.params ∧ t.inputs = s.inputs ∧ t.Settled) ∧
    (tail.length < 6 → ∃ t : State,
      runCommands (List.replicate (ps.length + 1) .rxsvc) s = some (ps.map Payload.delivered ++ [.noFrame], t) ∧
      t.rxq = tail ∧ t.txq = s.txq ∧ t.params = s.params ∧ t.inputs = s.inputs ∧ t.Settled)

/-- R138, the rule's own inference from R133: bytes other than 0x01 before a good telegram are dropped one a
service, each reported, and then the telegram is delivered; the framer looks at nothing else. -/
def Obligations.Resynchronises : Prop :=
  ∀ (junk : List Byte) (p : Payload) (tail : List Byte) (s : State), (∀ b ∈ junk, b ≠ 0x01) →
    s.rxq = junk ++ p.bytes ++ tail →
    ∃ t : State, runCommands (List.replicate (junk.length + 1) .rxsvc) s =
        some (junk.map .unexpectedDomainByte ++ [p.delivered], t) ∧
      t.rxq = tail ∧ t.txq = s.txq ∧ t.params = s.params

/-- R200, in part the rule's own inference: there is no timeout. However many services are made, a partial
telegram of fewer than six bytes stays at the head of the queue, and bytes that come later are joined to it. -/
def Obligations.PartialTelegramWaits : Prop :=
  ∀ (n : Nat) (s : State), s.rxq.length < 6 → s.Settled →
    (∃ t : State, runCommands (List.replicate n .rxsvc) s = some (List.replicate n .noFrame, t) ∧
      t.rxq = s.rxq ∧ t.txq = s.txq) ∧
    (∀ (b : Byte) (rest : List Event), s.params.rxDepth = none → s.inputs = .arrive b :: rest →
      ∃ t : State, step s = .next t ∧ t.rxq = s.rxq ++ [b])

/-- R140 with D4: TXENC appends to the transmit log the six bytes {1, sender, receiver, variable, value, checksum}
for every operand, returns them, and changes nothing else; `F` is empty at the end. That the command writes what
it builds is the spec's decision D4 (notes/assumptions/6.md). Op 0x7 selects it; a word whose variable is 0x00 is
read as its row POLL (notes/assumptions/12.md). -/
def Obligations.TxencAppendsTelegram : Prop :=
  (∀ w : CommandWord, opField w = 0x7 → p2Field w ≠ 0x00 →
    decode (.command w) = .ok (.txenc (p0Field w) (p1Field w) (p2Field w) (p3Field w))) ∧
  (∀ (s : State) (sn rc v a : Byte), ∃ k : Byte,
    k.toNat = (1 + sn.toNat + rc.toNat + v.toNat + a.toNat) % 256 ∧
    exec (.txenc sn rc v a) s =
      .next { s with txq := s.txq ++ [0x01, sn, rc, v, a, k], returned := some (.ok (.bytes [0x01, sn, rc, v, a, k])),
                     frame := Frame.empty, phase := .idle }) ∧
  (∀ s : State, exec (.txenc 0x11 0x20 0x91 0x00) s =
      .next { s with txq := s.txq ++ [0x01, 0x11, 0x20, 0x91, 0x00, 0xC3],
                     returned := some (.ok (.bytes [0x01, 0x11, 0x20, 0x91, 0x00, 0xC3])),
                     frame := Frame.empty, phase := .idle })

/-- R80, a spelling of the spec's own (D13): POLL s, r, v has the effect of `TXENC s, r, 0x00, v`, which is to append
the poll request {1, s, r, 0, v, checksum}; its words are the TXENC words with a variable of 0x00. R80 only says that
the two rows overlap: that the decoder reads such a word as POLL and not as TXENC is the model's choice of
notes/assumptions/12.md. -/
def Obligations.PollIsTxencOfMarker : Prop :=
  (∀ w : CommandWord, opField w = 0x7 → p2Field w = 0x00 →
    decode (.command w) = .ok (.poll (p0Field w) (p1Field w) (p3Field w))) ∧
  ∀ (s : State) (sn rc v : Byte),
    exec (.poll sn rc v) s = exec (.txenc sn rc 0x00 v) s ∧
    encode (.poll sn rc v) = encode (.txenc sn rc 0x00 v) ∧
    ∃ k : Byte, k.toNat = (1 + sn.toNat + rc.toNat + v.toNat) % 256 ∧
      exec (.poll sn rc v) s =
        .next { s with txq := s.txq ++ [0x01, sn, rc, 0x00, v, k],
                       returned := some (.ok (.bytes [0x01, sn, rc, 0x00, v, k])),
                       frame := Frame.empty, phase := .idle }

/-- R142, the rule's own inference: the six bytes a TXENC writes, placed at the head of any receive queue, come
back from the next service as `Telegram` with the four operands, and exactly those six bytes go. -/
def Obligations.TransmitReceiveRoundTrip : Prop :=
  ∀ (s : State) (sn rc v a : Byte), ∃ (bs : List Byte) (t : State),
    exec (.txenc sn rc v a) s = .next t ∧ t.txq = s.txq ++ bs ∧ bs.length = 6 ∧ ValidTelegram bs ∧
    ∀ (u : State) (rest : List Byte), u.rxq = bs ++ rest →
      exec .rxsvc u = .next { u with rxq := rest, returned := some (.telegram sn rc v a),
                                     frame := Frame.empty, phase := .idle }

/-- R44: the first byte popped is the domain, then sender, receiver, command, argument, checksum, and TXENC appends
the six bytes in the same order. The bytes an outcome carries are those of R133; that `ChecksumMismatch` carries the
received sixth byte is the spec's decision D14 (notes/assumptions/21.md), and that TXENC itself writes is its decision
D4 (notes/assumptions/6.md). -/
def Obligations.WireByteOrder : Prop :=
  (∀ (s : State) (b0 b1 b2 b3 b4 b5 : Byte) (rest : List Byte), s.rxq = [b0, b1, b2, b3, b4, b5] ++ rest →
    b0 = 0x01 → ∃ t : State, exec .rxsvc s = .next t ∧ t.rxq = rest ∧
      (t.returned = some (.telegram b1 b2 b3 b4) ∨ t.returned = some (.checksumMismatch b1 b2 b3 b4 b5))) ∧
  (∀ (s : State) (sn rc v a : Byte), ∃ (t : State) (k : Byte), exec (.txenc sn rc v a) s = .next t ∧
    t.txq = s.txq ++ [0x01, sn, rc, v, a, k] ∧ k = cksum 0x01 sn rc v a)

/-- R130: CKSUM is pure; among the commands RXSVC alone depends on and changes the receive queue, and TXENC (with
its spelling POLL) alone changes the transmit log; both use `F` as a temporary, which holds nothing afterwards. -/
def Obligations.OnlyRxsvcReadsOnlyTxencWrites : Prop :=
  (∀ (s : State) (b0 b1 b2 b3 b4 : Byte), ∃ o : CommandOutcome, ∀ t : State,
    exec (.cksum b0 b1 b2 b3 b4) s = .next { s with returned := some o } ∧
    exec (.cksum b0 b1 b2 b3 b4) t = .next { t with returned := some o }) ∧
  (∀ (i : Instr) (s : State), i.isCommand = true → i ≠ .rxsvc → ∀ q : List Byte, ∃ t : State,
    exec i s = .next t ∧ t.rxq = s.rxq ∧ exec i { s with rxq := q } = .next { t with rxq := q }) ∧
  (∀ (i : Instr) (s t : State), i.transmits = false → exec i s = .next t → t.txq = s.txq) ∧
  (∀ (i : Instr) (s t : State), i = .rxsvc ∨ i.transmits = true → exec i s = .next t → t.frame = Frame.empty)

/-- R144, as far as it shows between commands (Decoding is left before the command ends, R28): below six pending
bytes a service stays in Idle; from six on it ends in Idle with one byte or six consumed, by the head byte and the
checksum; and every other command leaves the phase at Idle. -/
def Obligations.ReceptionTransitions : Prop :=
  (∀ s : State, s.phase = .idle → ∃ (t : State) (o : CommandOutcome),
    exec .rxsvc s = .next t ∧ t.phase = .idle ∧ t.returned = some o ∧
    (rxAvail s < 6 → o = .noFrame ∧ t.rxq = s.rxq) ∧
    (6 ≤ rxAvail s →
      (s.rxq.head? ≠ some 0x01 → (∃ b, o = .unexpectedDomainByte b) ∧ t.rxq = s.rxq.drop 1) ∧
      (s.rxq.head? = some 0x01 → ¬ ValidTelegram (s.rxq.take 6) →
        (∃ sn rc c a k, o = .checksumMismatch sn rc c a k) ∧ t.rxq = s.rxq.drop 6) ∧
      (s.rxq.head? = some 0x01 → ValidTelegram (s.rxq.take 6) →
        (∃ sn rc c a, o = .telegram sn rc c a) ∧ t.rxq = s.rxq.drop 6))) ∧
  (∀ (i : Instr) (s : State), i.isCommand = true → i ≠ .rxsvc → s.phase = .idle →
    ∃ t : State, exec i s = .next t ∧ t.phase = .idle)

/-! ### Outcomes (spec/60_exceptions.md) -/

/-- R162 (with R161's normal outcomes): `NoFrame` comes of fewer than six pending bytes and of nothing else, it
records nothing and changes nothing, it is not an error, and it fires no notification. -/
def Obligations.NoFrameIsANoOp : Prop :=
  (∀ s : State, s.Settled → s.rxq.length < 6 → exec .rxsvc s = .next { s with returned := some .noFrame }) ∧
  (∀ (i : Instr) (s t : State), i.isCommand = true → exec i s = .next t → t.returned = some .noFrame →
    i = .rxsvc ∧ s.rxq.length < 6) ∧
  CommandOutcome.noFrame.isError = false ∧ CommandOutcome.noFrame.notification = none ∧
  (∀ r, (CommandOutcome.ok r).isError = false) ∧
  (∀ sn rc c a, (CommandOutcome.telegram sn rc c a).isError = false)

/-- R160 (its numbers are the spec's own, D7): every command that goes on returns exactly one outcome, of a status
its row names: `OK` from all but RXSVC, `Telegram`, `NoFrame`, `UnexpectedDomainByte` and `ChecksumMismatch` from
RXSVC alone, `InvalidArgument` from FENC and UNPK alone; the codes are 0 to 5 in that order. -/
def Obligations.OutcomesByCommand : Prop :=
  (∀ (i : Instr) (s : State), i.isCommand = true → ∃ (t : State) (o : CommandOutcome),
    exec i s = .next t ∧ t.returned = some o ∧
    (i = .rxsvc ↔ o.code = 1 ∨ o.code = 2 ∨ o.code = 3 ∨ o.code = 4) ∧
    (o.code = 5 → (∃ v, i = .fenc v ∧ o = .invalidArgument v) ∨ (∃ l b, i = .unpk l b ∧ o = .invalidArgument l))) ∧
  (∀ r, (CommandOutcome.ok r).code = 0) ∧ (∀ sn rc c a, (CommandOutcome.telegram sn rc c a).code = 1) ∧
  CommandOutcome.noFrame.code = 2 ∧ (∀ b, (CommandOutcome.unexpectedDomainByte b).code = 3) ∧
  (∀ sn rc c a k, (CommandOutcome.checksumMismatch sn rc c a k).code = 4) ∧
  (∀ v, (CommandOutcome.invalidArgument v).code = 5)

/-- R167: the whole effect of each error on the state: `UnexpectedDomainByte` takes the head byte of the receive
queue, `ChecksumMismatch` takes six, `InvalidArgument` changes nothing, and the phase is Idle afterwards; nothing
is saved and nothing is switched. -/
def Obligations.ErrorEffects : Prop :=
  ∀ (i : Instr) (s t : State) (o : CommandOutcome), i.isCommand = true → s.Settled → exec i s = .next t →
    t.returned = some o →
    (∀ b, o = .unexpectedDomainByte b → t = { s with rxq := s.rxq.drop 1, returned := some o }) ∧
    (∀ sn rc c a k, o = .checksumMismatch sn rc c a k → t = { s with rxq := s.rxq.drop 6, returned := some o }) ∧
    (∀ v, o = .invalidArgument v → t = { s with returned := some o }) ∧
    t.phase = .idle

/-- R168: no error is fatal or sticky: whatever outcome the last step returned, the next instruction has the same
effect, and no step of any state ever faults. -/
def Obligations.NoErrorIsStickyOrFatal : Prop :=
  (∀ (i : Instr) (s : State) (o : Option CommandOutcome), exec i { s with returned := o } = exec i s) ∧
  (∀ (s : State) (f : Fault), step s ≠ .fault f)

/-- R170 and R171: the notification that corresponds to `Telegram` carries its four bytes and the one that
corresponds to `ChecksumMismatch` its five, in the same order; an outcome without a byte of a telegram has none
but `UnexpectedDomainByte`, which carries its byte (R172). -/
def Obligations.NotificationsCarryPayloads : Prop :=
  ∀ o : CommandOutcome,
    (∀ sn rc c a, o = .telegram sn rc c a → o.notification = some (.telegramReceived sn rc c a)) ∧
    (∀ sn rc c a k, o = .checksumMismatch sn rc c a k → o.notification = some (.checksumFailure sn rc c a k)) ∧
    (∀ b, o = .unexpectedDomainByte b → o.notification = some (.unexpectedByte b)) ∧
    ((∃ r, o = .ok r) ∨ o = .noFrame ∨ (∃ v, o = .invalidArgument v) → o.notification = none)

/-- R22 (D5) for the frame register and the phase: no instruction reads them before writing them, so what they
hold at its start changes neither what it returns nor any other state it leaves. -/
def Obligations.FrameNeverReadBeforeWritten : Prop :=
  ∀ (i : Instr) (s t : State) (f : Frame) (p : Phase), exec i s = .next t →
    ∃ u : State, exec i { s with frame := f, phase := p } = .next u ∧
      u.returned = t.returned ∧ u.rxq = t.rxq ∧ u.txq = t.txq ∧ u.params = t.params ∧ u.inputs = t.inputs

/-! ### The streams, the environment and the step -/

/-- R52, R20: bytes leave the receive queue in the order they entered it and nothing but the transport puts any in:
after any step but a restart, the queue is what it was with the newly arrived bytes behind it, less some bytes at
its head. A word on the wire brings its own six bytes (notes/assumptions/11.md). -/
def Obligations.ReceiveQueueIsFifo : Prop :=
  ∀ (s t : State), step s = .next t → (∀ init rest, s.inputs ≠ .restart init :: rest) →
    ∃ (arrived : List Byte) (n : Nat), (n = 0 ∨ n = 1 ∨ n = 6) ∧ t.rxq = (s.rxq ++ arrived).drop n ∧
      (arrived ≠ [] →
        (∃ b rest, s.inputs = .arrive b :: rest ∧ arrived = [b] ∧ n = 0) ∨
        (∃ (d sn rc c a k : Byte) (rest : List Event), arrived = [d, sn, rc, c, a, k] ∧
          s.inputs = .word (.telegram (telegramWord d sn rc c a k)) :: rest))

/-- R21, R49: the transmit log is append-only, and a step that appends to it appends one telegram of six bytes as
a unit. -/
def Obligations.TransmitLogIsAppendOnly : Prop :=
  ∀ (s t : State), step s = .next t → (∀ init rest, s.inputs ≠ .restart init :: rest) →
    t.txq = s.txq ∨ ∃ bs, t.txq = s.txq ++ bs ∧ ValidTelegram bs

/-- No step, whatever happens in it, changes the temperature table (R26, R55), the layouts (R29) or the depth of the
receive queue (R25 with D6: no parameter is written at run time). That the parameters stand in State at all is the
model's choice of notes/assumptions/1.md, and the events other than commands are those of notes/assumptions/7.md,
11.md and 24.md. -/
def Obligations.ParametersAreConstant : Prop :=
  ∀ (s t : State), step s = .next t → t.params = s.params

/-- R50, with U4 for a full queue: a byte that arrives while there is room is appended to the tail and nothing of
the block changes besides; one that arrives at a full queue is given no step. -/
def Obligations.ArrivalAppends : Prop :=
  ∀ (s : State) (b : Byte) (rest : List Event), s.inputs = .arrive b :: rest →
    ((∀ d, s.params.rxDepth = some d → s.rxq.length < d) →
      step s = .next { s with rxq := s.rxq ++ [b], inputs := rest, returned := none }) ∧
    (∀ d, s.params.rxDepth = some d → d ≤ s.rxq.length → step s = .refused .rxOverflow)

/-- The model's choice of notes/assumptions/11.md: six bytes on the wire, whether a telegram, one with a wrong
checksum or none at all, are the same as the six arriving one by one in the order of R44 and the host then issuing
RXSVC, in every state. -/
def Obligations.TelegramWordIsArrivalsThenService : Prop :=
  ∀ (s : State) (d sn rc c a k : Byte) (rest : List Event),
    step { s with inputs := .word (.telegram (telegramWord d sn rc c a k)) :: rest } =
      stepMany 7 { s with inputs :=
        [.arrive d, .arrive sn, .arrive rc, .arrive c, .arrive a, .arrive k, .word (encode .rxsvc)] ++ rest }

/-- R67 to R69, R74, R133, R136, over the model's notes/assumptions/11.md: a telegram of any of the five classes that
comes to an empty queue with room for it is delivered with its four bytes, whatever they are, if its checksum is
right, and reported as a mismatch if not; the queue is empty again and nothing else changes. -/
def Obligations.TelegramClassesAreReceived : Prop :=
  ∀ (s : State) (sn rc c a k : Byte) (i : Instr), s.rxq = [] → (∀ d, s.params.rxDepth = some d → 6 ≤ d) →
    (i = .tgVar sn rc c a k ∨ (i = .tgPoll sn rc a k ∧ c = 0x00) ∨ (i = .tgSuspend sn rc a k ∧ c = 0x91) ∨
      (i = .tgResume sn rc a k ∧ c = 0x8F) ∨ (i = .tgFanspeed sn rc a k ∧ c = 0x29)) →
    exec i s = .next { s with
      returned := some (if k.toNat = (1 + sn.toNat + rc.toNat + c.toNat + a.toNat) % 256 then .telegram sn rc c a
                        else .checksumMismatch sn rc c a k),
      frame := Frame.empty, phase := .idle }

/-- The model's choice of notes/assumptions/11.md: in a state of any queue a telegram of the five classes completes
whenever its six bytes fit, by one service on the lengthened queue; where they do not fit it has no step (U4). -/
def Obligations.TelegramClassesComplete : Prop :=
  ∀ (s : State) (sn rc c a k : Byte) (i : Instr),
    (i = .tgVar sn rc c a k ∨ (i = .tgPoll sn rc a k ∧ c = 0x00) ∨ (i = .tgSuspend sn rc a k ∧ c = 0x91) ∨
      (i = .tgResume sn rc a k ∧ c = 0x8F) ∨ (i = .tgFanspeed sn rc a k ∧ c = 0x29)) →
    ((∀ d, s.params.rxDepth = some d → s.rxq.length + 6 ≤ d) →
      ∃ t : State, exec i s = .next t ∧
        exec .rxsvc { s with rxq := s.rxq ++ [0x01, sn, rc, c, a, k] } = .next t ∧
        t.txq = s.txq ∧ t.params = s.params ∧ t.inputs = s.inputs) ∧
    (∀ d, s.params.rxDepth = some d → d < s.rxq.length + 6 → exec i s = .refused .rxOverflow)

/-- R204: the block has no suspend state: a TXENC issued after a service has delivered a suspend telegram writes its
six bytes like any other, for every operand. -/
def Obligations.TransmitsWhileSuspended : Prop :=
  ∀ (s t : State) (sn rc a sn' rc' v' a' : Byte), exec .rxsvc s = .next t →
    t.returned = some (.telegram sn rc 0x91 a) →
    exec (.txenc sn' rc' v' a') t =
      .next { t with txq := t.txq ++ [0x01, sn', rc', v', a', cksum 0x01 sn' rc' v' a'],
                     returned := some (.ok (.bytes [0x01, sn', rc', v', a', cksum 0x01 sn' rc' v' a'])),
                     frame := Frame.empty, phase := .idle }

/-- A step runs the decoded instruction: with a word as the next event that decodes to `i`, the step is `exec i` in
the state without that event (R13, R14). -/
def Obligations.StepRunsDecodedInstruction : Prop :=
  ∀ (s : State) (w : CodeWord) (i : Instr) (rest : List Event), s.inputs = .word w :: rest → decode w = .ok i →
    step s = exec i { s with inputs := rest }

/-- R173 and R194: with nothing asked of it the block does nothing: the step changes no state of the block and
returns no outcome. That it is a step at all is notes/assumptions/23.md. -/
def Obligations.IdleStepChangesNothing : Prop :=
  ∀ s : State, s.inputs = [] → step s = .next { s with returned := none }

/-! ### Encodings (spec/30_encoding.md) -/

/-- R78 (D19, D20): a command word whose op is 8..15 is refused; the operand bytes a command does not use do not
change what it decodes to. -/
def Obligations.ReservedOpsRefusedUnusedIgnored : Prop :=
  (∀ (s : State) (w : CommandWord) (rest : List Event), 8 ≤ (opField w).toNat →
    s.inputs = .word (.command w) :: rest → step s = .refused (.reservedCommandCode (opField w).toNat)) ∧
  (∀ p0 p1 p2 p3 p4 q0 q1 q2 q3 q4 : Byte,
    decode (.command (commandWord 0x0 p0 p1 p2 p3 p4)) = decode (.command (commandWord 0x0 p0 q1 q2 q3 q4)) ∧
    decode (.command (commandWord 0x1 p0 p1 p2 p3 p4)) = decode (.command (commandWord 0x1 p0 q1 q2 q3 q4)) ∧
    decode (.command (commandWord 0x2 p0 p1 p2 p3 p4)) = decode (.command (commandWord 0x2 p0 q1 q2 q3 q4)) ∧
    decode (.command (commandWord 0x3 p0 p1 p2 p3 p4)) = decode (.command (commandWord 0x3 p0 q1 q2 q3 q4)) ∧
    decode (.command (commandWord 0x4 p0 p1 p2 p3 p4)) = decode (.command (commandWord 0x4 p0 p1 q2 q3 q4)) ∧
    decode (.command (commandWord 0x6 p0 p1 p2 p3 p4)) = decode (.command (commandWord 0x6 q0 q1 q2 q3 q4)) ∧
    decode (.command (commandWord 0x7 p0 p1 p2 p3 p4)) = decode (.command (commandWord 0x7 p0 p1 p2 p3 q4)))

/-- R65: the checksum byte of a well-formed telegram word is the sum of the other five modulo 256, each taken as an
unsigned byte, and since the first is 1 this is (1 + sender + receiver + command + argument) mod 256. -/
def Obligations.WellFormedTelegramChecksum : Prop :=
  ∀ (i : Instr) (w : TelegramWord), i.wellFormed = true → encode i = .telegram w →
    (checksumField w).toNat = ((domainField w).toNat + (senderField w).toNat + (receiverField w).toNat +
      (commandField w).toNat + (argumentField w).toNat) % 256 ∧
    (checksumField w).toNat = (1 + (senderField w).toNat + (receiverField w).toNat +
      (commandField w).toNat + (argumentField w).toNat) % 256

/-- Decode and encode agree for every instruction of the table, well formed or not: decoding the encoding gives the
instruction back with every operand at every value, spelled by its most specific row; so a well-formed one comes
back as it is. -/
def Obligations.DecodeEncodeRoundTrip : Prop :=
  (∀ i : Instr, decode (encode i) = .ok i.respell) ∧
  (∀ i : Instr, i.wellFormed = true → decode (encode i) = .ok i)

/-- The other direction: what the decoder gives is spelled by its most specific row, and encoding it gives the word
back, with the operand bytes that its command does not use made zero. -/
def Obligations.EncodeDecodeRoundTrip : Prop :=
  (∀ (w : CodeWord) (i : Instr), decode w = .ok i → i.mostSpecific = true) ∧
  (∀ (w : TelegramWord) (i : Instr), decode (.telegram w) = .ok i → encode i = .telegram w) ∧
  (∀ (w : CommandWord) (i : Instr), decode (.command w) = .ok i → ∃ p1 p2 p3 p4 p0 : Byte,
    encode i = .command (commandWord (opField w) p0 p1 p2 p3 p4) ∧
    (p0 = p0Field w ∨ (p0 = 0 ∧ i = .rxsvc)) ∧
    (p1 = p1Field w ∨ (p1 = 0 ∧ (opField w).toNat ≠ 4 ∧ (opField w).toNat ≠ 5 ∧ (opField w).toNat ≠ 7)) ∧
    (p2 = p2Field w ∨ (p2 = 0 ∧ (opField w).toNat ≠ 5 ∧ (opField w).toNat ≠ 7)) ∧
    (p3 = p3Field w ∨ (p3 = 0 ∧ (opField w).toNat ≠ 5 ∧ (opField w).toNat ≠ 7)) ∧
    (p4 = p4Field w ∨ (p4 = 0 ∧ (opField w).toNat ≠ 5)))

/-- The spelling by the most specific row keeps the effect: nothing an instruction does is lost by the decoder's
choice between rows that share words (R80, R74, R136; notes/assumptions/12.md). -/
def Obligations.RespellingKeepsEffect : Prop :=
  ∀ (i : Instr) (s : State), exec i.respell s = exec i s ∧ encode i.respell = encode i ∧ i.respell.mostSpecific = true

/-- Words written out from the encodings of R70 to R74 decode to the instructions they stand for. Two of them match
two rows: that 0x72811002900 is read as POLL and not as TXENC, and 0x012111290763 as TG.FANSPEED and not as TG.VAR,
is the model's choice of notes/assumptions/12.md. -/
def Obligations.WordsFromTheSpecDecode : Prop :=
  decode (.command 0x0FF00000000) = .ok (.tdec 0xFF) ∧
  decode (.command 0x1FB00000000) = .ok (.tenc 0xFB) ∧
  decode (.command 0x20700000000) = .ok (.fdec 0x07) ∧
  decode (.command 0x30300000000) = .ok (.fenc 0x03) ∧
  decode (.command 0x4013A000000) = .ok (.unpk 0x01 0x3A) ∧
  decode (.command 0x50121112907) = .ok (.cksum 0x01 0x21 0x11 0x29 0x07) ∧
  decode (.command 0x60000000000) = .ok .rxsvc ∧
  decode (.command 0x72811290700) = .ok (.txenc 0x28 0x11 0x29 0x07) ∧
  decode (.command 0x72811002900) = .ok (.poll 0x28 0x11 0x29) ∧
  decode (.telegram 0x0111209100C3) = .ok (.tgSuspend 0x11 0x20 0x00 0xC3) ∧
  decode (.telegram 0x012111290763) = .ok (.tgFanspeed 0x21 0x11 0x07 0x63) ∧
  decode (.telegram 0x0111208F00C1) = .ok (.tgResume 0x11 0x20 0x00 0xC1)

/-! ### Reset and invariants (spec/70_reset_and_hazards.md) -/

/-- R190 (D17): after reset the receive queue is `RXQ_INIT`, the transmit log is empty, `F` holds no value, the phase
is Idle and the tables and layouts are the constants, for every choice of the open parameters. The fixed reset
state is the one at the defaults (notes/assumptions/2.md to 5.md). -/
def Obligations.ResetState : Prop :=
  (∀ (p : Params) (init : List Byte),
    (State.resetWith p init).rxq = init ∧ (State.resetWith p init).txq = [] ∧
    (State.resetWith p init).frame = Frame.empty ∧ (State.resetWith p init).phase = .idle ∧
    (State.resetWith p init).params = p) ∧
  State.reset = State.resetWith Config.params [] ∧ Config.params.rxDepth = none

/-- R191: nothing survives a reset: two states of the same block that differ in anything else are the same after a
restart, and no fault can come of what they held. A restart with a buffer content that fits answers the reset
state of R190. -/
def Obligations.NothingSurvivesReset : Prop :=
  ∀ (s t : State) (init : List Byte) (rest : List Event), s.params = t.params →
    s.inputs = .restart init :: rest → t.inputs = .restart init :: rest →
    step s = step t ∧
    ((∀ d, s.params.rxDepth = some d → init.length ≤ d) →
      step s = .next { State.resetWith s.params init with inputs := rest })

/-- Between commands, always: `F` holds no value and the phase is Idle (R22, R28, the latter the rule's own
inference), and the receive queue is within its depth (R20, R50). Every step keeps it. -/
def Obligations.StepKeepsInvariant : Prop :=
  ∀ (s t : State), s.Settled → s.WithinDepth → step s = .next t → t.Settled ∧ t.WithinDepth

/-- The invariant holds at reset, for every choice of the open parameters that allows the buffer content. -/
def Obligations.ResetMeetsInvariant : Prop :=
  (∀ (p : Params) (init : List Byte), (∀ d, p.rxDepth = some d → init.length ≤ d) →
    (State.resetWith p init).Settled ∧ (State.resetWith p init).WithinDepth) ∧
  State.reset.Settled ∧ State.reset.WithinDepth

/-- R141 (its inference) and R49, as an invariant: the transmit log is whole valid telegrams one after another; it is
so at reset and every step keeps it, so a receiver of it from its start never loses step. -/
def Obligations.TransmitLogIsWholeTelegrams : Prop :=
  State.reset.TransmitsWholeTelegrams ∧
  ∀ (s t : State), s.TransmitsWholeTelegrams → step s = .next t → t.TransmitsWholeTelegrams
end

