-- ==== Sys2Proof/Laws/Encoding.lean ====
section
/-!
SUPPORT. The fields of a word built from fields are those fields, and a word is built from its fields
(spec/30_encoding.md R61, R71).
-/

namespace Sys2Proof

/-- Appending a byte on the right shifts by one byte and adds. -/
theorem toNat_append_byte {m : Nat} (x : BitVec m) (b : Byte) : (x ++ b).toNat = x.toNat * 256 + b.toNat := by
  rw [BitVec.toNat_append, ← Nat.shiftLeft_add_eq_or_of_lt b.isLt, Nat.shiftLeft_eq]

/-! ### Command words -/

theorem commandWord_toNat (op : BitVec 4) (p0 p1 p2 p3 p4 : Byte) :
    (commandWord op p0 p1 p2 p3 p4).toNat = op.toNat * 2 ^ 40 + p0.toNat * 2 ^ 32 + p1.toNat * 2 ^ 24 +
      p2.toNat * 2 ^ 16 + p3.toNat * 2 ^ 8 + p4.toNat := by
  have h : (commandWord op p0 p1 p2 p3 p4).toNat = (op ++ p0 ++ p1 ++ p2 ++ p3 ++ p4).toNat := rfl
  rw [h]
  simp only [toNat_append_byte]
  omega

@[simp] theorem opField_commandWord (op : BitVec 4) (p0 p1 p2 p3 p4 : Byte) :
    opField (commandWord op p0 p1 p2 p3 p4) = op := by
  apply BitVec.eq_of_toNat_eq
  have := op.isLt; have := p0.isLt; have := p1.isLt; have := p2.isLt; have := p3.isLt; have := p4.isLt
  simp only [opField, BitVec.extractLsb'_toNat, commandWord_toNat, Nat.shiftRight_eq_div_pow]
  omega

@[simp] theorem p0Field_commandWord (op : BitVec 4) (p0 p1 p2 p3 p4 : Byte) :
    p0Field (commandWord op p0 p1 p2 p3 p4) = p0 := by
  apply BitVec.eq_of_toNat_eq
  have := op.isLt; have := p0.isLt; have := p1.isLt; have := p2.isLt; have := p3.isLt; have := p4.isLt
  simp only [p0Field, BitVec.extractLsb'_toNat, commandWord_toNat, Nat.shiftRight_eq_div_pow]
  omega

@[simp] theorem p1Field_commandWord (op : BitVec 4) (p0 p1 p2 p3 p4 : Byte) :
    p1Field (commandWord op p0 p1 p2 p3 p4) = p1 := by
  apply BitVec.eq_of_toNat_eq
  have := op.isLt; have := p0.isLt; have := p1.isLt; have := p2.isLt; have := p3.isLt; have := p4.isLt
  simp only [p1Field, BitVec.extractLsb'_toNat, commandWord_toNat, Nat.shiftRight_eq_div_pow]
  omega

@[simp] theorem p2Field_commandWord (op : BitVec 4) (p0 p1 p2 p3 p4 : Byte) :
    p2Field (commandWord op p0 p1 p2 p3 p4) = p2 := by
  apply BitVec.eq_of_toNat_eq
  have := op.isLt; have := p0.isLt; have := p1.isLt; have := p2.isLt; have := p3.isLt; have := p4.isLt
  simp only [p2Field, BitVec.extractLsb'_toNat, commandWord_toNat, Nat.shiftRight_eq_div_pow]
  omega

@[simp] theorem p3Field_commandWord (op : BitVec 4) (p0 p1 p2 p3 p4 : Byte) :
    p3Field (commandWord op p0 p1 p2 p3 p4) = p3 := by
  apply BitVec.eq_of_toNat_eq
  have := op.isLt; have := p0.isLt; have := p1.isLt; have := p2.isLt; have := p3.isLt; have := p4.isLt
  simp only [p3Field, BitVec.extractLsb'_toNat, commandWord_toNat, Nat.shiftRight_eq_div_pow]
  omega

@[simp] theorem p4Field_commandWord (op : BitVec 4) (p0 p1 p2 p3 p4 : Byte) :
    p4Field (commandWord op p0 p1 p2 p3 p4) = p4 := by
  apply BitVec.eq_of_toNat_eq
  have := op.isLt; have := p0.isLt; have := p1.isLt; have := p2.isLt; have := p3.isLt; have := p4.isLt
  simp only [p4Field, BitVec.extractLsb'_toNat, commandWord_toNat, Nat.shiftRight_eq_div_pow]
  omega

theorem commandWord_fields (w : CommandWord) :
    commandWord (opField w) (p0Field w) (p1Field w) (p2Field w) (p3Field w) (p4Field w) = w := by
  apply BitVec.eq_of_toNat_eq
  have := w.isLt
  simp only [opField, p0Field, p1Field, p2Field, p3Field, p4Field, BitVec.extractLsb'_toNat, commandWord_toNat,
    Nat.shiftRight_eq_div_pow]
  omega

/-! ### Telegram words -/

theorem telegramWord_toNat (d sn rc c a k : Byte) :
    (telegramWord d sn rc c a k).toNat = d.toNat * 2 ^ 40 + sn.toNat * 2 ^ 32 + rc.toNat * 2 ^ 24 +
      c.toNat * 2 ^ 16 + a.toNat * 2 ^ 8 + k.toNat := by
  have h : (telegramWord d sn rc c a k).toNat = (d ++ sn ++ rc ++ c ++ a ++ k).toNat := rfl
  rw [h]
  simp only [toNat_append_byte]
  omega

@[simp] theorem domainField_telegramWord (d sn rc c a k : Byte) : domainField (telegramWord d sn rc c a k) = d := by
  apply BitVec.eq_of_toNat_eq
  have := d.isLt; have := sn.isLt; have := rc.isLt; have := c.isLt; have := a.isLt; have := k.isLt
  simp only [domainField, BitVec.extractLsb'_toNat, telegramWord_toNat, Nat.shiftRight_eq_div_pow]
  omega

@[simp] theorem senderField_telegramWord (d sn rc c a k : Byte) : senderField (telegramWord d sn rc c a k) = sn := by
  apply BitVec.eq_of_toNat_eq
  have := d.isLt; have := sn.isLt; have := rc.isLt; have := c.isLt; have := a.isLt; have := k.isLt
  simp only [senderField, BitVec.extractLsb'_toNat, telegramWord_toNat, Nat.shiftRight_eq_div_pow]
  omega

@[simp] theorem receiverField_telegramWord (d sn rc c a k : Byte) : receiverField (telegramWord d sn rc c a k) = rc := by
  apply BitVec.eq_of_toNat_eq
  have := d.isLt; have := sn.isLt; have := rc.isLt; have := c.isLt; have := a.isLt; have := k.isLt
  simp only [receiverField, BitVec.extractLsb'_toNat, telegramWord_toNat, Nat.shiftRight_eq_div_pow]
  omega

@[simp] theorem commandField_telegramWord (d sn rc c a k : Byte) : commandField (telegramWord d sn rc c a k) = c := by
  apply BitVec.eq_of_toNat_eq
  have := d.isLt; have := sn.isLt; have := rc.isLt; have := c.isLt; have := a.isLt; have := k.isLt
  simp only [commandField, BitVec.extractLsb'_toNat, telegramWord_toNat, Nat.shiftRight_eq_div_pow]
  omega

@[simp] theorem argumentField_telegramWord (d sn rc c a k : Byte) : argumentField (telegramWord d sn rc c a k) = a := by
  apply BitVec.eq_of_toNat_eq
  have := d.isLt; have := sn.isLt; have := rc.isLt; have := c.isLt; have := a.isLt; have := k.isLt
  simp only [argumentField, BitVec.extractLsb'_toNat, telegramWord_toNat, Nat.shiftRight_eq_div_pow]
  omega

@[simp] theorem checksumField_telegramWord (d sn rc c a k : Byte) : checksumField (telegramWord d sn rc c a k) = k := by
  apply BitVec.eq_of_toNat_eq
  have := d.isLt; have := sn.isLt; have := rc.isLt; have := c.isLt; have := a.isLt; have := k.isLt
  simp only [checksumField, BitVec.extractLsb'_toNat, telegramWord_toNat, Nat.shiftRight_eq_div_pow]
  omega

theorem telegramWord_fields (w : TelegramWord) :
    telegramWord (domainField w) (senderField w) (receiverField w) (commandField w) (argumentField w)
      (checksumField w) = w := by
  apply BitVec.eq_of_toNat_eq
  have := w.isLt
  simp only [domainField, senderField, receiverField, commandField, argumentField, checksumField,
    BitVec.extractLsb'_toNat, telegramWord_toNat, Nat.shiftRight_eq_div_pow]
  omega

/-! ### The spelling by the most specific row -/

/-- An instruction that is spelled by its most specific row is its own spelling. -/
theorem Instr.respell_of_mostSpecific (i : Instr) (h : i.mostSpecific = true) : i.respell = i := by
  cases i <;> simp_all [Instr.mostSpecific, Instr.respell]

end Sys2Proof
end

