-- ==== Sys2Proof/Laws/Operands.lean ====
section
/-!
SUPPORT. What the operand forms compute: signedness (spec/00_scope.md R10), the searches of TENC and FDEC
(spec/40_value_codec.md R102, R104), the bit fields (R109, R110) and the checksum (spec/41_telegram_codec.md
R131).
-/

namespace Sys2Proof.Machine

/-! ### Signed bytes -/

theorem s8_range (b : Byte) : -128 ≤ s8 b ∧ s8 b ≤ 127 := by
  have := b.isLt
  unfold s8
  split <;> constructor <;> omega

theorem s8_eq_toInt (b : Byte) : s8 b = b.toInt := by
  have := b.isLt
  rw [s8, BitVec.toInt_eq_toNat_cond]
  split <;> split <;> omega

@[simp] theorem u8_s8 (b : Byte) : u8 (s8 b) = b := by
  rw [s8_eq_toInt, u8, BitVec.ofInt_toInt]

theorem s8_u8 (v : Int) (h : -128 ≤ v ∧ v ≤ 127) : s8 (u8 v) = v := by
  rw [s8_eq_toInt, u8, BitVec.toInt_ofInt, Int.bmod_eq_of_le] <;> omega

/-! ### The temperature table -/

theorem tempAt_range (table : TempTable) (i : Byte) : -128 ≤ tempAt table i ∧ tempAt table i ≤ 127 :=
  s8_range _

/-- What TENC's search gives: the first index whose entry is at or above the target, or the byte 100 where
every entry is below it. -/
theorem firstAtOrAbove_spec (table : TempTable) (t : Int) :
    (t ≤ tempAt table (firstAtOrAbove table t) ∧ ∀ j : Byte, j < firstAtOrAbove table t → tempAt table j < t) ∨
    ((∀ j : Byte, tempAt table j < t) ∧ firstAtOrAbove table t = Config.tencNotFound) := by
  unfold firstAtOrAbove
  split
  · rename_i i hi
    left
    rw [List.findIdx?_eq_some_iff_getElem] at hi
    obtain ⟨hlt, hge, hmin⟩ := hi
    have hi256 : i < 256 := by simpa using hlt
    have htn : (BitVec.ofNat 8 i).toNat = i := by simp; omega
    refine ⟨?_, fun j hj => ?_⟩
    · simpa [tempAt, htn, Nat.mod_eq_of_lt hi256] using hge
    · have hji : j.toNat < i := by
        have := BitVec.lt_def.mp hj
        omega
      have := hmin j.toNat hji
      simpa [tempAt] using this
  · rename_i hnone
    right
    refine ⟨fun j => ?_, rfl⟩
    rw [List.findIdx?_eq_none_iff] at hnone
    have hmem : table[j.toNat]'j.isLt ∈ table.toList := by simp
    simpa [tempAt] using hnone _ hmem

/-! ### The fan table -/

/-- FDEC's search inverts the fan table. -/
theorem speedOf_fanTable (k : Fin 8) : speedOf Config.fanTable[k] = k + 1 := by
  revert k; decide

/-- FDEC gives 0 for every byte that is not in the fan table. -/
theorem speedOf_unrecognised (b : Byte) (h : ∀ k : Fin 8, Config.fanTable[k] ≠ b) : speedOf b = 0 := by
  unfold speedOf
  have hnone : Config.fanTable.toList.findIdx? (fun e => decide (e = b)) = none := by
    rw [List.findIdx?_eq_none_iff]
    intro x hx
    obtain ⟨k, hk, rfl⟩ := List.getElem_of_mem hx
    have hk8 : k < 8 := by simpa using hk
    simpa using h ⟨k, hk8⟩
  rw [hnone]

theorem speedOf_le (b : Byte) : speedOf b ≤ 8 := by
  unfold speedOf
  split
  · rename_i i hi
    rw [List.findIdx?_eq_some_iff_getElem] at hi
    obtain ⟨hlt, -⟩ := hi
    have : i < 8 := by simpa using hlt
    omega
  · omega

/-- FENC on a speed 1..8 reads the fan table. -/
theorem fanWireByte_valid (v : Byte) (h : 1 ≤ v.toNat ∧ v.toNat ≤ 8) :
    fanWireByte v = .ok (.byte (Config.fanTable[v.toNat - 1]'(by omega))) := by
  simp [fanWireByte, h]

/-- FENC on any other operand. -/
theorem fanWireByte_invalid (v : Byte) (h : ¬ (1 ≤ v.toNat ∧ v.toNat ≤ 8)) : fanWireByte v = .invalidArgument v := by
  simp only [fanWireByte, h, dite_false]

/-! ### Bit fields -/

@[simp] theorem fieldValue_flag (n : String) (i : Fin 8) (b : Byte) :
    fieldValue (.flag n i) b = .flag (b.getLsbD i) := rfl

/-- A count is the integer of the four bits from lsb. -/
theorem fieldValue_count (n : String) (lsb : Fin 5) (b : Byte) :
    fieldValue (.count n lsb) b = .count (b.toNat / 2 ^ lsb.val % 16) := by
  simp [fieldValue, BitVec.extractLsb'_toNat, Nat.shiftRight_eq_div_pow]

theorem unpack_named (layouts : List Layout) (l b : Byte) (lay : Layout) (h : layouts[l.toNat]? = some lay) :
    unpack layouts l b = .ok (.fields (lay.fields.map (fun f => fieldValue f b))) := by
  simp [unpack, h]

theorem unpack_unnamed (layouts : List Layout) (l b : Byte) (h : layouts.length ≤ l.toNat) :
    unpack layouts l b = .invalidArgument l := by
  simp [unpack, List.getElem?_eq_none h]

/-! ### The checksum -/

/-- Reducing once or after each addition gives the same byte (R131). -/
theorem cksum_eq_add (b0 b1 b2 b3 b4 : Byte) : cksum b0 b1 b2 b3 b4 = b0 + b1 + b2 + b3 + b4 := by
  apply BitVec.eq_of_toNat_eq
  simp only [cksum, Config.checksumMod, BitVec.toNat_ofNat, BitVec.toNat_add]
  omega

theorem cksum_toNat (b0 b1 b2 b3 b4 : Byte) :
    (cksum b0 b1 b2 b3 b4).toNat = (b0.toNat + b1.toNat + b2.toNat + b3.toNat + b4.toNat) % 256 := by
  simp only [cksum, Config.checksumMod, BitVec.toNat_ofNat]
  omega

/-! ### The bytes of a telegram -/

@[simp] theorem frameBytes_length (sn rc c a k : Byte) : (frameBytes sn rc c a k).length = 6 := rfl

@[simp] theorem telegramBytes_length (sn rc c a : Byte) : (telegramBytes sn rc c a).length = 6 := rfl

@[simp] theorem frameBytes_drop (sn rc c a k : Byte) (rest : List Byte) :
    (frameBytes sn rc c a k ++ rest).drop 6 = rest := rfl

@[simp] theorem frameBytes_take (sn rc c a k : Byte) (rest : List Byte) :
    (frameBytes sn rc c a k ++ rest).take 6 = frameBytes sn rc c a k := by
  simp [frameBytes]

@[simp] theorem telegramBytes_drop (sn rc c a : Byte) (rest : List Byte) :
    (telegramBytes sn rc c a ++ rest).drop 6 = rest := rfl

@[simp] theorem telegramBytes_take (sn rc c a : Byte) (rest : List Byte) :
    (telegramBytes sn rc c a ++ rest).take 6 = telegramBytes sn rc c a := by
  simp [telegramBytes]

end Sys2Proof.Machine
end

