-- ==== Sys2Proof/Laws/State.lean ====
section
/-!
SUPPORT. What each update of the state does to each field, one lemma a field, and what the frame register holds
after a write.
-/

namespace Sys2Proof.Machine

variable (s : State)

/-! ### `State.respond` -/

@[simp] theorem State.respond_rxq (o : CommandOutcome) : (s.respond o).rxq = s.rxq := rfl
@[simp] theorem State.respond_txq (o : CommandOutcome) : (s.respond o).txq = s.txq := rfl
@[simp] theorem State.respond_frame (o : CommandOutcome) : (s.respond o).frame = s.frame := rfl
@[simp] theorem State.respond_phase (o : CommandOutcome) : (s.respond o).phase = s.phase := rfl
@[simp] theorem State.respond_params (o : CommandOutcome) : (s.respond o).params = s.params := rfl
@[simp] theorem State.respond_inputs (o : CommandOutcome) : (s.respond o).inputs = s.inputs := rfl
@[simp] theorem State.respond_returned (o : CommandOutcome) : (s.respond o).returned = some o := rfl

/-! ### `State.finish` -/

@[simp] theorem State.finish_rxq (o : CommandOutcome) : (s.finish o).rxq = s.rxq := rfl
@[simp] theorem State.finish_txq (o : CommandOutcome) : (s.finish o).txq = s.txq := rfl
@[simp] theorem State.finish_frame (o : CommandOutcome) : (s.finish o).frame = Frame.empty := rfl
@[simp] theorem State.finish_phase (o : CommandOutcome) : (s.finish o).phase = .idle := rfl
@[simp] theorem State.finish_params (o : CommandOutcome) : (s.finish o).params = s.params := rfl
@[simp] theorem State.finish_inputs (o : CommandOutcome) : (s.finish o).inputs = s.inputs := rfl
@[simp] theorem State.finish_returned (o : CommandOutcome) : (s.finish o).returned = some o := rfl

/-! ### `State.enterDecoding` -/

@[simp] theorem State.enterDecoding_rxq : (s.enterDecoding).rxq = s.rxq := rfl
@[simp] theorem State.enterDecoding_txq : (s.enterDecoding).txq = s.txq := rfl
@[simp] theorem State.enterDecoding_frame : (s.enterDecoding).frame = s.frame := rfl
@[simp] theorem State.enterDecoding_phase : (s.enterDecoding).phase = .decoding := rfl
@[simp] theorem State.enterDecoding_params : (s.enterDecoding).params = s.params := rfl
@[simp] theorem State.enterDecoding_inputs : (s.enterDecoding).inputs = s.inputs := rfl
@[simp] theorem State.enterDecoding_returned : (s.enterDecoding).returned = s.returned := rfl

/-! ### `State.setRxq` -/

@[simp] theorem State.setRxq_rxq (bs : List Byte) : (s.setRxq bs).rxq = bs := rfl
@[simp] theorem State.setRxq_txq (bs : List Byte) : (s.setRxq bs).txq = s.txq := rfl
@[simp] theorem State.setRxq_frame (bs : List Byte) : (s.setRxq bs).frame = s.frame := rfl
@[simp] theorem State.setRxq_phase (bs : List Byte) : (s.setRxq bs).phase = s.phase := rfl
@[simp] theorem State.setRxq_params (bs : List Byte) : (s.setRxq bs).params = s.params := rfl
@[simp] theorem State.setRxq_inputs (bs : List Byte) : (s.setRxq bs).inputs = s.inputs := rfl
@[simp] theorem State.setRxq_returned (bs : List Byte) : (s.setRxq bs).returned = s.returned := rfl

/-! ### `State.txWrite` -/

@[simp] theorem State.txWrite_rxq (bs : List Byte) : (s.txWrite bs).rxq = s.rxq := rfl
@[simp] theorem State.txWrite_txq (bs : List Byte) : (s.txWrite bs).txq = s.txq ++ bs := rfl
@[simp] theorem State.txWrite_frame (bs : List Byte) : (s.txWrite bs).frame = s.frame := rfl
@[simp] theorem State.txWrite_phase (bs : List Byte) : (s.txWrite bs).phase = s.phase := rfl
@[simp] theorem State.txWrite_params (bs : List Byte) : (s.txWrite bs).params = s.params := rfl
@[simp] theorem State.txWrite_inputs (bs : List Byte) : (s.txWrite bs).inputs = s.inputs := rfl
@[simp] theorem State.txWrite_returned (bs : List Byte) : (s.txWrite bs).returned = s.returned := rfl

/-! ### `State.writeF` -/

@[simp] theorem State.writeF_rxq (k : FrameField) (b : Byte) : (s.writeF k b).rxq = s.rxq := rfl
@[simp] theorem State.writeF_txq (k : FrameField) (b : Byte) : (s.writeF k b).txq = s.txq := rfl
@[simp] theorem State.writeF_frame (k : FrameField) (b : Byte) : (s.writeF k b).frame = s.frame.set k b := rfl
@[simp] theorem State.writeF_phase (k : FrameField) (b : Byte) : (s.writeF k b).phase = s.phase := rfl
@[simp] theorem State.writeF_params (k : FrameField) (b : Byte) : (s.writeF k b).params = s.params := rfl
@[simp] theorem State.writeF_inputs (k : FrameField) (b : Byte) : (s.writeF k b).inputs = s.inputs := rfl
@[simp] theorem State.writeF_returned (k : FrameField) (b : Byte) : (s.writeF k b).returned = s.returned := rfl

/-! ### `State.silent` -/

@[simp] theorem State.silent_rxq : (s.silent).rxq = s.rxq := rfl
@[simp] theorem State.silent_txq : (s.silent).txq = s.txq := rfl
@[simp] theorem State.silent_frame : (s.silent).frame = s.frame := rfl
@[simp] theorem State.silent_phase : (s.silent).phase = s.phase := rfl
@[simp] theorem State.silent_params : (s.silent).params = s.params := rfl
@[simp] theorem State.silent_inputs : (s.silent).inputs = s.inputs := rfl
@[simp] theorem State.silent_returned : (s.silent).returned = none := rfl

/-! ### Updates over updates -/

@[simp] theorem State.finish_silent (o : CommandOutcome) : s.silent.finish o = s.finish o := rfl
@[simp] theorem State.finish_enterDecoding (o : CommandOutcome) : s.enterDecoding.finish o = s.finish o := rfl
@[simp] theorem State.finish_writeF (o : CommandOutcome) (k : FrameField) (b : Byte) :
    (s.writeF k b).finish o = s.finish o := rfl
@[simp] theorem State.setRxq_setRxq (as bs : List Byte) : (s.setRxq as).setRxq bs = s.setRxq bs := rfl
@[simp] theorem State.setRxq_self : s.setRxq s.rxq = s := rfl
@[simp] theorem State.setRxq_silent (bs : List Byte) : s.silent.setRxq bs = (s.setRxq bs).silent := rfl
@[simp] theorem State.silent_silent : s.silent.silent = s.silent := rfl

/-- Without a depth there is always room. -/
theorem State.roomFor_unbounded (n : Nat) (h : s.params.rxDepth = none) : s.roomFor n = true := by
  simp [State.roomFor, h]

/-- With a depth, there is room for what still fits. -/
theorem State.roomFor_bounded (n d : Nat) (h : s.params.rxDepth = some d) :
    s.roomFor n = decide (s.rxq.length + n ≤ d) := by
  simp [State.roomFor, h]

/-- A longer queue of the same depth has room for less. -/
theorem State.roomFor_add (m n : Nat) (bs : List Byte) (hb : bs.length = m) :
    (s.setRxq (s.rxq ++ bs)).roomFor n = s.roomFor (m + n) := by
  simp only [State.roomFor, State.setRxq_params, State.setRxq_rxq, List.length_append, hb]
  split <;> simp [Nat.add_assoc]

/-- Room for more is room for less. -/
theorem State.roomFor_mono (m n : Nat) (hle : m ≤ n) (h : s.roomFor n = true) : s.roomFor m = true := by
  unfold State.roomFor at *
  split at h
  · rfl
  · simp only [decide_eq_true_eq] at *
    omega

@[simp] theorem State.roomFor_silent (n : Nat) : s.silent.roomFor n = s.roomFor n := rfl

/-! ### The frame register -/

@[simp] theorem Frame.get_empty (k : FrameField) : Frame.empty.get k = none := by
  cases k <;> rfl

@[simp] theorem Frame.get_set_self (f : Frame) (k : FrameField) (b : Byte) : (f.set k b).get k = some b := by
  cases k <;> rfl

theorem Frame.get_set_other (f : Frame) (k l : FrameField) (b : Byte) (h : l ≠ k) :
    (f.set k b).get l = f.get l := by
  cases k <;> cases l <;> first | rfl | exact absurd rfl h

end Sys2Proof.Machine
end

