-- ==== Sys2Proof/Laws/Ops.lean ====
section
/-!
SUPPORT. What each shared operation can do, said once: the receive service (R133), the arrival of bytes (R50),
the reception of a telegram, the transmission (R140), and what an instruction can leave behind.
-/

namespace Sys2Proof.Machine

variable (s t : State)

@[simp] theorem andThen_next (k : State → Answer) : andThen (.next s) k = k s := rfl
@[simp] theorem andThen_fault (f : Fault) (k : State → Answer) : andThen (.fault f) k = .fault f := rfl
@[simp] theorem andThen_refused (r : Refusal) (k : State → Answer) : andThen (.refused r) k = .refused r := rfl

/-! ### The receive service -/

/-- Fewer than six bytes pending: nothing is consumed. -/
theorem rxService_short (h : s.rxq.length < 6) : rxService s = .next (s.finish .noFrame) := by
  simp [rxService, rxAvail, Config.frameLen, h]

/-- Six bytes pending and a head byte that is not the domain byte: that byte alone goes. -/
theorem rxService_unexpected (d : Byte) (rest : List Byte) (hq : s.rxq = d :: rest) (hlen : 5 ≤ rest.length)
    (hd : d ≠ Config.domain) :
    rxService s = .next ((s.setRxq rest).finish (.unexpectedDomainByte d)) := by
  have hl : ¬ rest.length + 1 < 6 := by omega
  simp [rxService, rxAvail, Config.frameLen, hl, popInto, hq, readF, hd]
  rfl

/-- Six bytes pending under the domain byte: all six go, and the checksum decides between the outcomes. -/
theorem rxService_frame (sn rc c a k : Byte) (rest : List Byte)
    (hq : s.rxq = Config.domain :: sn :: rc :: c :: a :: k :: rest) :
    rxService s = .next ((s.setRxq rest).finish
      (if k = telegramChecksum sn rc c a then .telegram sn rc c a else .checksumMismatch sn rc c a k)) := by
  simp [rxService, rxAvail, Config.frameLen, popInto, hq, readF, decodeRest, verifyFrame, Frame.get,
    Frame.set, telegramChecksum]
  by_cases h : cksum Config.domain sn rc c a = k
  · simp [h]; rfl
  · have h' : ¬ k = cksum Config.domain sn rc c a := fun e => h e.symm
    simp [h, h']; rfl

/-- A queue of six bytes or more, taken apart. -/
theorem six_of_length {q : List Byte} (h : ¬ q.length < 6) :
    ∃ d sn rc c a k rest, q = d :: sn :: rc :: c :: a :: k :: rest := by
  rcases q with _ | ⟨d, _ | ⟨sn, _ | ⟨rc, _ | ⟨c, _ | ⟨a, _ | ⟨k, rest⟩⟩⟩⟩⟩⟩
  all_goals first | exact ⟨d, sn, rc, c, a, k, rest, rfl⟩ | simp at h

/-- Everything a receive service can do: it always answers a next state, in one of R144's four ways. -/
theorem rxService_cases :
    (s.rxq.length < 6 ∧ rxService s = .next (s.finish .noFrame)) ∨
    (∃ d rest, s.rxq = d :: rest ∧ 5 ≤ rest.length ∧ d ≠ Config.domain ∧
      rxService s = .next ((s.setRxq rest).finish (.unexpectedDomainByte d))) ∨
    (∃ sn rc c a k rest, s.rxq = frameBytes sn rc c a k ++ rest ∧ k ≠ telegramChecksum sn rc c a ∧
      rxService s = .next ((s.setRxq rest).finish (.checksumMismatch sn rc c a k))) ∨
    (∃ sn rc c a rest, s.rxq = telegramBytes sn rc c a ++ rest ∧
      rxService s = .next ((s.setRxq rest).finish (.telegram sn rc c a))) := by
  by_cases hl : s.rxq.length < 6
  · exact .inl ⟨hl, rxService_short s hl⟩
  · obtain ⟨d, sn, rc, c, a, k, rest, hq⟩ := six_of_length hl
    by_cases hd : d = Config.domain
    · subst hd
      have h := rxService_frame s sn rc c a k rest hq
      by_cases hk : k = telegramChecksum sn rc c a
      · subst hk
        exact .inr (.inr (.inr ⟨sn, rc, c, a, rest, hq, by simpa using h⟩))
      · exact .inr (.inr (.inl ⟨sn, rc, c, a, k, rest, hq, hk, by simpa [hk] using h⟩))
    · exact .inr (.inl ⟨d, _, hq, by simp, hd, rxService_unexpected s d _ hq (by simp) hd⟩)

/-! ### Arrivals and the reception of a telegram -/

/-- A byte that finds room joins the tail of the queue; one that finds none has no step. -/
theorem rxArrive_eq (b : Byte) :
    rxArrive b s = if s.roomFor 1 then .next (s.setRxq (s.rxq ++ [b])).silent else .refused .rxOverflow := rfl

/-- Bytes that all find room join the tail in their order. -/
theorem rxArriveAll_room (bs : List Byte) (hne : bs ≠ []) (h : s.roomFor bs.length = true) :
    rxArriveAll bs s = .next (s.setRxq (s.rxq ++ bs)).silent := by
  induction bs generalizing s with
  | nil => exact absurd rfl hne
  | cons b bs ih =>
    have h1 : s.roomFor 1 = true := s.roomFor_mono 1 _ (by simp) h
    have hrest : (s.setRxq (s.rxq ++ [b])).silent.roomFor bs.length = true := by
      rw [State.roomFor_silent, s.roomFor_add 1 _ [b] rfl]
      simpa [Nat.add_comm] using h
    simp only [rxArriveAll, rxArrive_eq, h1, if_true, andThen_next]
    cases bs with
    | nil => rfl
    | cons c cs =>
      rw [ih _ (by simp) hrest]
      simp

/-- Bytes that do not all find room: the run has no step (U4). -/
theorem rxArriveAll_full (bs : List Byte) (hne : bs ≠ []) (h : s.roomFor bs.length = false) :
    rxArriveAll bs s = .refused .rxOverflow := by
  induction bs generalizing s with
  | nil => exact absurd rfl hne
  | cons b bs ih =>
    by_cases h1 : s.roomFor 1 = true
    · have hrest : (s.setRxq (s.rxq ++ [b])).silent.roomFor bs.length = false := by
        rw [State.roomFor_silent, s.roomFor_add 1 _ [b] rfl]
        simpa [Nat.add_comm] using h
      simp only [rxArriveAll, rxArrive_eq, h1, if_true, andThen_next]
      cases bs with
      | nil => simp [h1] at h
      | cons c cs => exact ih _ (by simp) hrest
    · simp [rxArriveAll, rxArrive_eq, h1]

/-- Bytes that find room are received by one service on the lengthened queue. -/
theorem receiveBytes_room (bs : List Byte) (hne : bs ≠ []) (h : s.roomFor bs.length = true) :
    receiveBytes bs s = rxService (s.setRxq (s.rxq ++ bs)).silent := by
  rw [receiveBytes, rxArriveAll_room s bs hne h, andThen_next]

/-- Bytes that find no room have no step. -/
theorem receiveBytes_full (bs : List Byte) (hne : bs ≠ []) (h : s.roomFor bs.length = false) :
    receiveBytes bs s = .refused .rxOverflow := by
  rw [receiveBytes, rxArriveAll_full s bs hne h, andThen_refused]

/-- A telegram that finds room is received by one service on the lengthened queue. -/
theorem receiveTelegram_room (sn rc c a k : Byte) (h : s.roomFor 6 = true) :
    receiveTelegram sn rc c a k s = rxService (s.setRxq (s.rxq ++ frameBytes sn rc c a k)).silent :=
  receiveBytes_room s (frameBytes sn rc c a k) (by simp [frameBytes]) h

/-- A telegram that finds no room has no step. -/
theorem receiveTelegram_full (sn rc c a k : Byte) (h : s.roomFor 6 = false) :
    receiveTelegram sn rc c a k s = .refused .rxOverflow :=
  receiveBytes_full s (frameBytes sn rc c a k) (by simp [frameBytes]) h

/-! ### The transmission -/

/-- A transmission appends the valid telegram of its operands to the transmit log. -/
theorem transmit_eq (sn rc v a : Byte) :
    transmit sn rc v a s =
      .next ((s.txWrite (telegramBytes sn rc v a)).finish (.ok (.bytes (telegramBytes sn rc v a)))) := by
  simp [transmit, readF, writeFrame, Frame.get, Frame.set, telegramBytes, frameBytes, telegramChecksum]
  rfl

/-! ### Fetch -/

theorem fetch_idle (h : s.inputs = []) : fetch s = .idle := by
  simp [fetch, h]

theorem fetch_arrival (b : Byte) (rest : List Event) (h : s.inputs = .arrive b :: rest) :
    fetch s = .arrival b { s with inputs := rest } := by
  simp [fetch, h]

theorem fetch_restart (init : List Byte) (rest : List Event) (h : s.inputs = .restart init :: rest) :
    fetch s = .restart init { s with inputs := rest } := by
  simp [fetch, h]

theorem fetch_instruction (w : CodeWord) (i : Instr) (rest : List Event) (h : s.inputs = .word w :: rest)
    (hd : decode w = .ok i) : fetch s = .instruction i { s with inputs := rest } := by
  cases w <;> simp [fetch, h, hd]

theorem fetch_strayFrame (w : TelegramWord) (rest : List Event) (h : s.inputs = .word (.telegram w) :: rest)
    (hd : domainField w ≠ Config.domain) : fetch s = .strayFrame w { s with inputs := rest } := by
  simp [fetch, h, decode, decodeTelegram, hd]

/-! ### What an instruction can leave behind -/

/-- The instructions that only compute on their operands and the constants (R100, R130). -/
def pureOutcome (p : Params) : Instr → Option CommandOutcome
  | .tdec b => some (.ok (.temp (tempAt p.tempTable b)))
  | .tenc t => some (.ok (.byte (firstAtOrAbove p.tempTable (s8 t))))
  | .fdec b => some (.ok (.speed (speedOf b)))
  | .fenc v => some (fanWireByte v)
  | .unpk l b => some (unpack p.layouts l b)
  | .cksum b0 b1 b2 b3 b4 => some (.ok (.byte (cksum b0 b1 b2 b3 b4)))
  | .rxsvc => none
  | .txenc _ _ _ _ => none
  | .poll _ _ _ => none
  | .tgVar _ _ _ _ _ => none
  | .tgPoll _ _ _ _ => none
  | .tgSuspend _ _ _ _ => none
  | .tgResume _ _ _ _ => none
  | .tgFanspeed _ _ _ _ => none

/-- The payload of the transmitting instructions. -/
def transmitted : Instr → Option (Byte × Byte × Byte × Byte)
  | .txenc sn rc v a => some (sn, rc, v, a)
  | .poll sn rc v => some (sn, rc, Config.pollMarker, v)
  | .tdec _ => none
  | .tenc _ => none
  | .fdec _ => none
  | .fenc _ => none
  | .unpk _ _ => none
  | .cksum _ _ _ _ _ => none
  | .rxsvc => none
  | .tgVar _ _ _ _ _ => none
  | .tgPoll _ _ _ _ => none
  | .tgSuspend _ _ _ _ => none
  | .tgResume _ _ _ _ => none
  | .tgFanspeed _ _ _ _ => none

/-- The five bytes after the domain byte of the telegram instructions. -/
def received : Instr → Option (Byte × Byte × Byte × Byte × Byte)
  | .tgVar sn rc c a k => some (sn, rc, c, a, k)
  | .tgPoll sn rc v k => some (sn, rc, Config.pollMarker, v, k)
  | .tgSuspend sn rc a k => some (sn, rc, Config.varSuspend, a, k)
  | .tgResume sn rc a k => some (sn, rc, Config.varResume, a, k)
  | .tgFanspeed sn rc a k => some (sn, rc, Config.varFanspeed, a, k)
  | .tdec _ => none
  | .tenc _ => none
  | .fdec _ => none
  | .fenc _ => none
  | .unpk _ _ => none
  | .cksum _ _ _ _ _ => none
  | .rxsvc => none
  | .txenc _ _ _ _ => none
  | .poll _ _ _ => none

/-- Everything an instruction can be: a pure computation, one receive service, one transmission, or the
reception of one telegram. Later proofs cite this instead of unfolding `exec`. -/
theorem exec_cases (i : Instr) :
    (∃ o, pureOutcome s.params i = some o ∧ exec i s = .next (s.respond o)) ∨
    (i = .rxsvc ∧ exec i s = rxService s) ∨
    (∃ sn rc v a, transmitted i = some (sn, rc, v, a) ∧
      exec i s = .next ((s.txWrite (telegramBytes sn rc v a)).finish (.ok (.bytes (telegramBytes sn rc v a))))) ∨
    (∃ sn rc c a k, received i = some (sn, rc, c, a, k) ∧ exec i s = receiveTelegram sn rc c a k s) := by
  cases i with
  | tdec b => exact .inl ⟨_, rfl, rfl⟩
  | tenc t => exact .inl ⟨_, rfl, rfl⟩
  | fdec b => exact .inl ⟨_, rfl, rfl⟩
  | fenc v => exact .inl ⟨_, rfl, rfl⟩
  | unpk l b => exact .inl ⟨_, rfl, rfl⟩
  | cksum b0 b1 b2 b3 b4 => exact .inl ⟨_, rfl, rfl⟩
  | rxsvc => exact .inr (.inl ⟨rfl, rfl⟩)
  | txenc sn rc v a => exact .inr (.inr (.inl ⟨sn, rc, v, a, rfl, transmit_eq s sn rc v a⟩))
  | poll sn rc v => exact .inr (.inr (.inl ⟨sn, rc, _, v, rfl, transmit_eq s sn rc _ v⟩))
  | tgVar sn rc c a k => exact .inr (.inr (.inr ⟨sn, rc, c, a, k, rfl, rfl⟩))
  | tgPoll sn rc v k => exact .inr (.inr (.inr ⟨sn, rc, _, v, k, rfl, rfl⟩))
  | tgSuspend sn rc a k => exact .inr (.inr (.inr ⟨sn, rc, _, a, k, rfl, rfl⟩))
  | tgResume sn rc a k => exact .inr (.inr (.inr ⟨sn, rc, _, a, k, rfl, rfl⟩))
  | tgFanspeed sn rc a k => exact .inr (.inr (.inr ⟨sn, rc, _, a, k, rfl, rfl⟩))

end Sys2Proof.Machine
end

