-- ==== Sys2Proof/Laws/PerInstr.lean ====
section
/-!
SUPPORT. Family `OpcodeRow`: the word an instruction is encoded as has the fixed bits of its row of
spec/opcode_table.json (the row's match under its mask), said of the fields those bits are.
-/

namespace Sys2Proof.Laws.OpcodeRow

/-- The fixed fields of an instruction's row: the op of a command row (and byte `p2` of `POLL`), the domain and
the command byte of a telegram row (all but those of the other rows, for `TG.VAR`). -/
def Statement (i : Instr) : Prop :=
  match i, encode i with
  | .tdec _, .command w => opField w = 0x0
  | .tenc _, .command w => opField w = 0x1
  | .fdec _, .command w => opField w = 0x2
  | .fenc _, .command w => opField w = 0x3
  | .unpk _ _, .command w => opField w = 0x4
  | .cksum _ _ _ _ _, .command w => opField w = 0x5
  | .rxsvc, .command w => opField w = 0x6
  | .txenc _ _ _ _, .command w => opField w = 0x7
  | .poll _ _ _, .command w => opField w = 0x7 ∧ p2Field w = 0x00
  | .tgVar _ _ _ _ _, .telegram w => domainField w = 0x01
  | .tgPoll _ _ _ _, .telegram w => domainField w = 0x01 ∧ commandField w = 0x00
  | .tgSuspend _ _ _ _, .telegram w => domainField w = 0x01 ∧ commandField w = 0x91
  | .tgResume _ _ _ _, .telegram w => domainField w = 0x01 ∧ commandField w = 0x8F
  | .tgFanspeed _ _ _ _, .telegram w => domainField w = 0x01 ∧ commandField w = 0x29
  | _, _ => False

theorem tdec (b : Byte) : Statement (.tdec b) := opField_commandWord ..
theorem tenc (t : Byte) : Statement (.tenc t) := opField_commandWord ..
theorem fdec (b : Byte) : Statement (.fdec b) := opField_commandWord ..
theorem fenc (v : Byte) : Statement (.fenc v) := opField_commandWord ..
theorem unpk (l b : Byte) : Statement (.unpk l b) := opField_commandWord ..
theorem cksum (b0 b1 b2 b3 b4 : Byte) : Statement (.cksum b0 b1 b2 b3 b4) := opField_commandWord ..
theorem rxsvc : Statement .rxsvc := opField_commandWord ..
theorem txenc (sn rc v a : Byte) : Statement (.txenc sn rc v a) := opField_commandWord ..
theorem poll (sn rc v : Byte) : Statement (.poll sn rc v) := ⟨opField_commandWord .., p2Field_commandWord ..⟩
theorem tgVar (sn rc c a k : Byte) : Statement (.tgVar sn rc c a k) := domainField_telegramWord ..
theorem tgPoll (sn rc v k : Byte) : Statement (.tgPoll sn rc v k) :=
  ⟨domainField_telegramWord .., commandField_telegramWord ..⟩
theorem tgSuspend (sn rc a k : Byte) : Statement (.tgSuspend sn rc a k) :=
  ⟨domainField_telegramWord .., commandField_telegramWord ..⟩
theorem tgResume (sn rc a k : Byte) : Statement (.tgResume sn rc a k) :=
  ⟨domainField_telegramWord .., commandField_telegramWord ..⟩
theorem tgFanspeed (sn rc a k : Byte) : Statement (.tgFanspeed sn rc a k) :=
  ⟨domainField_telegramWord .., commandField_telegramWord ..⟩

end Sys2Proof.Laws.OpcodeRow
end

