-- ==== Sys2Proof/Laws/Step.lean ====
section
/-!
SUPPORT. What a receive service, an instruction and a step can leave behind, said once for the invariants.
-/

namespace Sys2Proof.Machine

variable (s t : State)

/-- A service depends on the queue and on what it leaves alone: two states that agree on those give one answer. -/
theorem rxService_congr (hq : t.rxq = s.rxq) (hx : t.txq = s.txq) (hp : t.params = s.params)
    (hi : t.inputs = s.inputs) : rxService t = rxService s := by
  have hfin : ∀ (q : List Byte) (o : CommandOutcome), (t.setRxq q).finish o = (s.setRxq q).finish o := by
    intro q o
    simp [State.finish, State.setRxq, hx, hp, hi]
  rcases rxService_cases s with ⟨hl, h⟩ | ⟨d, rest, hs, hl, hd, h⟩ | ⟨sn, rc, c, a, k, rest, hs, hk, h⟩ |
    ⟨sn, rc, c, a, rest, hs, h⟩
  · have hself := hfin s.rxq .noFrame
    rw [State.setRxq_self, ← hq, State.setRxq_self] at hself
    rw [h, rxService_short t (by rw [hq]; exact hl), hself]
  · rw [h, rxService_unexpected t d rest (hq.trans hs) hl hd, hfin]
  · rw [h, rxService_frame t sn rc c a k rest (hq.trans hs), if_neg hk, hfin]
  · rw [h, rxService_frame t sn rc c a _ rest (hq.trans hs), if_pos rfl, hfin]

/-- What a service leaves: some bytes fewer at the head of the queue, and everything but the outcome as it was. -/
theorem rxService_effect (h : rxService s = .next t) :
    ∃ n, (n = 0 ∨ n = 1 ∨ n = 6) ∧ t.rxq = s.rxq.drop n ∧ t.txq = s.txq ∧ t.params = s.params ∧
      t.inputs = s.inputs ∧ t.Settled := by
  rcases rxService_cases s with ⟨-, h2⟩ | ⟨d, rest, hq, -, -, h2⟩ | ⟨sn, rc, c, a, k, rest, hq, -, h2⟩ |
    ⟨sn, rc, c, a, rest, hq, h2⟩ <;> rw [h2] at h <;> cases h
  · exact ⟨0, by simp, by simp, rfl, rfl, rfl, rfl, rfl⟩
  · exact ⟨1, by simp, by simp [hq], rfl, rfl, rfl, rfl, rfl⟩
  · exact ⟨6, by simp, by simp [hq], rfl, rfl, rfl, rfl, rfl⟩
  · exact ⟨6, by simp, by simp [hq], rfl, rfl, rfl, rfl, rfl⟩

/-- What the reception of bytes leaves. -/
theorem receiveBytes_effect (bs : List Byte) (hne : bs ≠ []) (h : receiveBytes bs s = .next t) :
    s.roomFor bs.length = true ∧ ∃ n, (n = 0 ∨ n = 1 ∨ n = 6) ∧ t.rxq = (s.rxq ++ bs).drop n ∧ t.txq = s.txq ∧
      t.params = s.params ∧ t.inputs = s.inputs ∧ t.Settled := by
  by_cases hr : s.roomFor bs.length = true
  · rw [receiveBytes_room s bs hne hr] at h
    exact ⟨hr, rxService_effect _ t h⟩
  · rw [receiveBytes_full s bs hne (by simpa using hr)] at h
    cases h

/-- What an instruction leaves: the parameters and the coming events as they were, the block between commands, at
most one valid telegram more in the transmit log, and the receive queue with bytes gone from its head, those of a
telegram instruction having joined its tail. -/
theorem exec_effect (i : Instr) (h : exec i s = .next t) :
    t.params = s.params ∧ t.inputs = s.inputs ∧ (s.Settled → t.Settled) ∧
    (t.txq = s.txq ∨ ∃ p : Payload, t.txq = s.txq ++ p.bytes) ∧
    ((∃ n, (n = 0 ∨ n = 1 ∨ n = 6) ∧ t.rxq = s.rxq.drop n) ∨
     ∃ sn rc c a k n, received i = some (sn, rc, c, a, k) ∧ s.roomFor 6 = true ∧ (n = 0 ∨ n = 1 ∨ n = 6) ∧
      t.rxq = (s.rxq ++ frameBytes sn rc c a k).drop n) := by
  rcases exec_cases s i with ⟨o, -, h'⟩ | ⟨rfl, h'⟩ | ⟨sn, rc, v, a, -, h'⟩ | ⟨sn, rc, c, a, k, hr, h'⟩ <;> rw [h'] at h
  · cases h
    exact ⟨rfl, rfl, id, .inl rfl, .inl ⟨0, by simp, by simp⟩⟩
  · obtain ⟨n, hn, h1, h2, h3, h4, h5⟩ := rxService_effect s t h
    exact ⟨h3, h4, fun _ => h5, .inl h2, .inl ⟨n, hn, h1⟩⟩
  · cases h
    exact ⟨rfl, rfl, fun _ => ⟨rfl, rfl⟩, .inr ⟨⟨sn, rc, v, a⟩, rfl⟩, .inl ⟨0, by simp, by simp⟩⟩
  · obtain ⟨hroom, n, hn, h1, h2, h3, h4, h5⟩ := receiveBytes_effect s t _ (by simp [frameBytes]) h
    exact ⟨h3, h4, fun _ => h5, .inl h2, .inr ⟨sn, rc, c, a, k, n, hr, hroom, hn, h1⟩⟩

/-- Everything a step can be: idle, an arrival, a restart, an instruction, or six bytes that are no telegram. -/
theorem step_cases (h : step s = .next t) :
    (s.inputs = [] ∧ t = s.silent) ∨
    (∃ b rest, s.inputs = .arrive b :: rest ∧ s.roomFor 1 = true ∧
      t = { s with rxq := s.rxq ++ [b], inputs := rest, returned := none }) ∨
    (∃ init rest, s.inputs = .restart init :: rest ∧
      t = { State.resetWith s.params init with inputs := rest } ∧
      ∀ d, s.params.rxDepth = some d → init.length ≤ d) ∨
    (∃ w i rest, s.inputs = .word w :: rest ∧ decode w = .ok i ∧ exec i { s with inputs := rest } = .next t) ∨
    (∃ w rest, s.inputs = .word (.telegram w) :: rest ∧
      receiveBytes (telegramWordBytes w) { s with inputs := rest } = .next t) := by
  unfold step fetch at h
  rcases hin : s.inputs with _ | ⟨e, rest⟩
  · rw [hin] at h
    cases h
    exact .inl ⟨rfl, rfl⟩
  · rw [hin] at h
    rcases e with (w | w) | b | init
    · rcases hd : decode (.command w) with e | i <;> simp only [hd] at h
      · cases h
      · exact .inr (.inr (.inr (.inl ⟨_, i, rest, rfl, hd, h⟩)))
    · rcases hd : decode (.telegram w) with e | i <;> simp only [hd] at h
      · exact .inr (.inr (.inr (.inr ⟨w, rest, rfl, h⟩)))
      · exact .inr (.inr (.inr (.inl ⟨_, i, rest, rfl, hd, h⟩)))
    · simp only [rxArrive_eq] at h
      split at h
      · rename_i hr
        cases h
        exact .inr (.inl ⟨b, rest, rfl, hr, rfl⟩)
      · cases h
    · simp only [restart] at h
      split at h
      · rename_i hr
        cases h
        refine .inr (.inr (.inl ⟨init, rest, rfl, rfl, fun d hd => ?_⟩))
        simpa [State.roomFor, State.resetWith, hd] using hr
      · cases h

end Sys2Proof.Machine
end

