-- ==== Sys2Proof/Tests/Slice0.lean ====
section
/-!
SUPPORT. The model's own tests. The expected values are those of spec/95_test_vectors.md (named beside each test)
or of the rule named there; none was read off the model. Then the witnesses that the hypotheses of the statements
can be met. They are elaborated one after another: side by side, the many small evaluations take a thread each.
-/

set_option Elab.async false

namespace Sys2Proof.Tests

open Sys2Proof Sys2Proof.Machine

/-! ### The toy parameters of spec/95_test_vectors.md -/

/-- `TOY[i] = min(100, floor(i / 2) - 20)`. -/
def toy : TempTable := Vector.ofFn (fun i : Fin 256 => u8 (min 100 (((i.val / 2 : Nat) : Int) - 20)))

/-- `TOY2[i] = min(100, 10 * floor(i / 20) - 20)`. -/
def toy2 : TempTable := Vector.ofFn (fun i : Fin 256 => u8 (min 100 (10 * ((i.val / 20 : Nat) : Int) - 20)))

/-- The toy layout 1. -/
def toyprog : Layout := ⟨"toyprog", [.count "n" 0, .flag "f4" 4, .flag "f5" 5, .flag "f6" 6, .flag "f7" 7]⟩

/-- The block with the toy table and layout, and a receive queue that holds at most `depth` bytes. -/
def block (depth : Option Nat) (rxq : List Byte) : State := State.resetWith ⟨toy, [toyprog], depth⟩ rxq

/-- The unbounded block with nothing received. -/
def fresh : State := block none []

/-- The outcome a step returned, where it answered a next state. -/
def outcome (a : Answer) : Option CommandOutcome :=
  match a with
  | .next s => s.returned
  | .fault _ => none
  | .refused _ => none

/-- The receive queue and the transmit log after a step. -/
def queues (a : Answer) : Option (List Byte × List Byte) :=
  match a with
  | .next s => some (s.rxq, s.txq)
  | .fault _ => none
  | .refused _ => none

theorem toy_at (i : Byte) : tempAt toy i = min 100 (((i.toNat / 2 : Nat) : Int) - 20) := by
  have hi := i.isLt
  simp only [tempAt, toy, Vector.getElem_ofFn]
  exact s8_u8 _ (by omega)

theorem toy_nondecreasing : Nondecreasing toy := by
  intro i j h
  rw [BitVec.le_def] at h
  simp only [toy_at]
  omega

theorem toy_saturates : Saturates toy :=
  ⟨fun i => by simp only [toy_at]; omega, 0xFF, by simp only [toy_at]; decide⟩

/-! ### Decoding: words of spec/95_test_vectors.md, and others written from R71 and R61 -/

theorem test_decode_tdec : decode (.command 0x0FF00000000) = .ok (.tdec 0xFF) := by decide
theorem test_decode_tenc : decode (.command 0x1FB00000000) = .ok (.tenc 0xFB) := by decide
theorem test_decode_fdec : decode (.command 0x20700000000) = .ok (.fdec 0x07) := by decide
theorem test_decode_fenc : decode (.command 0x30300000000) = .ok (.fenc 0x03) := by decide
theorem test_decode_unpk : decode (.command 0x4013A000000) = .ok (.unpk 0x01 0x3A) := by decide
theorem test_decode_cksum : decode (.command 0x50121112907) = .ok (.cksum 0x01 0x21 0x11 0x29 0x07) := by decide
theorem test_decode_rxsvc : decode (.command 0x6ABCDEF0123) = .ok .rxsvc := by decide
theorem test_decode_txenc : decode (.command 0x72811290700) = .ok (.txenc 0x28 0x11 0x29 0x07) := by decide
theorem test_decode_poll : decode (.command 0x72811002900) = .ok (.poll 0x28 0x11 0x29) := by decide
theorem test_decode_tgVar : decode (.telegram 0x012811A45230) = .ok (.tgVar 0x28 0x11 0xA4 0x52 0x30) := by decide
theorem test_decode_tgPoll : decode (.telegram 0x012811002963) = .ok (.tgPoll 0x28 0x11 0x29 0x63) := by decide
theorem test_decode_tgSuspend : decode (.telegram 0x0111209100C3) = .ok (.tgSuspend 0x11 0x20 0x00 0xC3) := by decide
theorem test_decode_tgResume : decode (.telegram 0x0111208F00C1) = .ok (.tgResume 0x11 0x20 0x00 0xC1) := by decide
theorem test_decode_tgFanspeed : decode (.telegram 0x012111290763) = .ok (.tgFanspeed 0x21 0x11 0x07 0x63) := by decide
/-- V-ERR E4. -/
theorem test_decode_reserved : decode (.command 0x80000000000) = .error (.reservedCommandCode 8) ∧
    decode (.command 0xFFFFFFFFFFF) = .error (.reservedCommandCode 15) := by decide
/-- R75: a first byte of 0x02 is no telegram. -/
theorem test_decode_domain : decode (.telegram 0x0211209100C3) = .error (.notATelegram 0x02) := by decide
/-- The table's numbering in whole bytes. -/
theorem test_table_words : decodeTableWord 44 0x16500000000 = some (.tenc 0x65) ∧
    decodeTableWord 48 0x016500000000 = some (.tenc 0x65) ∧
    decodeTableWord 48 0x0111209100C3 = some (.tgSuspend 0x11 0x20 0x00 0xC3) ∧
    decodeTableWord 48 0x072811290700 = some (.txenc 0x28 0x11 0x29 0x07) ∧
    decodeTableWord 44 0x80000000000 = none := by decide

/-! ### WellFormed: each check refuses an ill-formed term and takes a well-formed one -/

theorem test_wf_checksum : (Instr.tgSuspend 0x11 0x20 0x00 0xC4).wellFormed = false ∧
    (Instr.tgSuspend 0x11 0x20 0x00 0xC3).wellFormed = true := by decide
theorem test_wf_tgVar_class : (Instr.tgVar 0x11 0x20 0x91 0x00 0xC3).wellFormed = false ∧
    (Instr.tgVar 0x28 0x11 0xA4 0x52 0x30).wellFormed = true := by decide
theorem test_wf_txenc_poll : (Instr.txenc 0x28 0x11 0x00 0x29).wellFormed = false ∧
    (Instr.txenc 0x28 0x11 0x29 0x07).wellFormed = true := by decide

/-! ### Meanings: vectors of spec/95_test_vectors.md -/

/-- T1, T4. -/
theorem test_tdec : outcome (exec (.tdec 0x00) fresh) = some (.ok (.temp (-20))) ∧
    outcome (exec (.tdec 0x64) fresh) = some (.ok (.temp 30)) := by decide +kernel
/-- T11 (tie to the lower index), T12 (negative operand). -/
theorem test_tenc : outcome (exec (.tenc 0xED) fresh) = some (.ok (.byte 2)) ∧
    outcome (exec (.tenc 0xFB) fresh) = some (.ok (.byte 30)) := by decide +kernel
/-- T20 (not found). -/
theorem test_tenc_not_found : outcome (exec (.tenc 101) fresh) = some (.ok (.byte 100)) := by decide +kernel
/-- V-FDEC: two bits set but not 0x03; seven bits set but not 0x7F. -/
theorem test_fdec : outcome (exec (.fdec 0x07) fresh) = some (.ok (.speed 3)) ∧
    outcome (exec (.fdec 0x05) fresh) = some (.ok (.speed 0)) ∧
    outcome (exec (.fdec 0xFE) fresh) = some (.ok (.speed 0)) := by decide +kernel
/-- V-FENC: the ends of the range, and 255, which is not read as -1. -/
theorem test_fenc : outcome (exec (.fenc 8) fresh) = some (.ok (.byte 0xFF)) ∧
    outcome (exec (.fenc 0) fresh) = some (.invalidArgument 0) ∧
    outcome (exec (.fenc 9) fresh) = some (.invalidArgument 9) ∧
    outcome (exec (.fenc 255) fresh) = some (.invalidArgument 255) := by decide +kernel
/-- U8, and the bad layout number of V-UNPK. -/
theorem test_unpk : outcome (exec (.unpk 1 0x3A) fresh) =
      some (.ok (.fields [.count 10, .flag true, .flag true, .flag false, .flag false])) ∧
    outcome (exec (.unpk 7 0x12) fresh) = some (.invalidArgument 7) := by decide +kernel
/-- U3. -/
theorem test_unpk_bits8 : outcome (exec (.unpk 0 0xA5) fresh) =
    some (.ok (.fields [.flag true, .flag false, .flag true, .flag false, .flag false, .flag true, .flag false,
      .flag true])) := by decide +kernel
/-- K2, K3, K6. -/
theorem test_cksum : outcome (exec (.cksum 0xFF 0xFF 0xFF 0xFF 0xFF) fresh) = some (.ok (.byte 0xFB)) ∧
    outcome (exec (.cksum 0x01 0x21 0x11 0x29 0x07) fresh) = some (.ok (.byte 0x63)) ∧
    outcome (exec (.cksum 0x80 0x80 0x00 0x00 0x00) fresh) = some (.ok (.byte 0x00)) := by decide +kernel
/-- V-RX-5: the source's literal 0x6A fails its own formula; V-RX-3: a bad head below six bytes is not looked at. -/
theorem test_rxsvc : outcome (exec .rxsvc (block none [0x01, 0x21, 0x11, 0x29, 0x07, 0x6A])) =
      some (.checksumMismatch 0x21 0x11 0x29 0x07 0x6A) ∧
    outcome (exec .rxsvc (block none [0x02, 0x03, 0x04, 0x05, 0x06])) = some .noFrame := by decide +kernel
/-- V-RX-10 (one byte consumed), V-RX-15 (a false telegram, two bytes left). -/
theorem test_rxsvc_queue :
    queues (exec .rxsvc (block none [0x00, 0x01, 0x21, 0x11, 0x29, 0x07])) = some ([0x01, 0x21, 0x11, 0x29, 0x07], []) ∧
    outcome (exec .rxsvc (block none [0x01, 0x5D, 0x01, 0x11, 0x21, 0x91, 0x55, 0x19])) =
      some (.telegram 0x5D 0x01 0x11 0x21) ∧
    queues (exec .rxsvc (block none [0x01, 0x5D, 0x01, 0x11, 0x21, 0x91, 0x55, 0x19])) = some ([0x55, 0x19], []) := by
  decide +kernel
/-- V-TX-2, V-TX-5. -/
theorem test_txenc : queues (exec (.txenc 0x11 0x20 0x91 0x00) fresh) = some ([], [0x01, 0x11, 0x20, 0x91, 0x00, 0xC3]) ∧
    queues (exec (.txenc 0xFF 0xFF 0xFF 0xFF) fresh) = some ([], [0x01, 0xFF, 0xFF, 0xFF, 0xFF, 0xFD]) := by
  decide +kernel
/-- V-TX-6. -/
theorem test_poll : outcome (exec (.poll 0x28 0x11 0x29) fresh) =
    some (.ok (.bytes [0x01, 0x28, 0x11, 0x00, 0x29, 0x63])) := by decide +kernel
/-- P6 line 2's telegram, received; V-RX-8. -/
theorem test_tgVar : outcome (exec (.tgVar 0x28 0x11 0xA4 0x52 0x30) fresh) = some (.telegram 0x28 0x11 0xA4 0x52) ∧
    outcome (exec (.tgVar 0x28 0x11 0xA4 0x52 0x31) fresh) = some (.checksumMismatch 0x28 0x11 0xA4 0x52 0x31) := by
  decide +kernel
/-- P3 line 7. -/
theorem test_tgPoll : outcome (exec (.tgPoll 0x28 0x11 0x29 0x63) fresh) = some (.telegram 0x28 0x11 0x00 0x29) := by
  decide +kernel
/-- S5a; V-RX-14. -/
theorem test_tgSuspend : outcome (exec (.tgSuspend 0x11 0x20 0x00 0xC3) fresh) = some (.telegram 0x11 0x20 0x91 0x00) ∧
    outcome (exec (.tgSuspend 0x11 0x20 0x01 0xC3) fresh) = some (.checksumMismatch 0x11 0x20 0x91 0x01 0xC3) := by
  decide +kernel
/-- P4 line 2. -/
theorem test_tgResume : outcome (exec (.tgResume 0x11 0x20 0x00 0xC1) fresh) = some (.telegram 0x11 0x20 0x8F 0x00) := by
  decide +kernel
/-- S4a; and behind a stray byte the telegram waits (R47). -/
theorem test_tgFanspeed : outcome (exec (.tgFanspeed 0x21 0x11 0x07 0x63) fresh) = some (.telegram 0x21 0x11 0x29 0x07) ∧
    outcome (exec (.tgFanspeed 0x21 0x11 0x07 0x63) (block none [0x02])) = some (.unexpectedDomainByte 0x02) := by
  decide +kernel

/-! ### The step -/

/-- P1 lines 2 and 3: three bytes arrive; R50's overflow at depth 6; V-ERR E4. -/
theorem test_step_arrive :
    queues (step { block none [0x01, 0x21] with inputs := [.arrive 0x11] }) = some ([0x01, 0x21, 0x11], []) := by
  decide +kernel
theorem test_step_overflow :
    step { block (some 6) [1, 2, 3, 4, 5, 6] with inputs := [.arrive 0x11] } = .refused .rxOverflow := rfl
theorem test_step_reserved : step (fresh.withFetchWord 44 0x80000000000) = .refused (.reservedCommandCode 8) := rfl
/-- R75: six bytes on the wire under a wrong first byte are received, and that byte is reported. -/
theorem test_step_stray :
    outcome (step (fresh.withFetchWord 48 0xFF11209100C3)) = some (.unexpectedDomainByte 0xFF) ∧
    queues (step (fresh.withFetchWord 48 0xFF11209100C3)) = some ([0x11, 0x20, 0x91, 0x00, 0xC3], []) := by
  decide +kernel
/-- The fixed reset state runs a word placed for it: V-FDEC and S5a. -/
theorem test_step_from_reset :
    outcome (step (State.reset.withFetchWord 44 0x20700000000)) = some (.ok (.speed 3)) ∧
    outcome (step (State.reset.withFetchWord 48 0x0111209100C3)) = some (.telegram 0x11 0x20 0x91 0x00) := by
  decide +kernel

/-! ### Witnesses: the hypotheses of each statement can be met -/

theorem witness_TdecReturnsTableEntry :
    opField 0x0FF00000000 = 0x0 ∧ Nondecreasing fresh.params.tempTable ∧ Saturates fresh.params.tempTable :=
  ⟨by decide, toy_nondecreasing, toy_saturates⟩

/-- Some entry at or above 100, none at or above 101, entry 0 at -20, and over TOY2 5 strictly between the entries
at 59 and 60. -/
theorem witness_TencReturnsFirstIndexAtOrAbove :
    opField 0x1FB00000000 = 0x1 ∧ (∃ i, (100 : Byte).toInt ≤ tempAt toy i) ∧ (∀ i, tempAt toy i < (101 : Byte).toInt) ∧
    (0xEC : Byte).toInt ≤ tempAt toy 0x00 ∧
    (tempAt toy2 (60 - 1) < (5 : Byte).toInt ∧ (5 : Byte).toInt < tempAt toy2 60) ∧
    (0x80 : Byte).toInt = -128 ∧ (127 : Byte).toInt = 127 ∧ Nondecreasing toy ∧ Saturates toy := by
  refine ⟨by decide, ⟨0xFF, by decide +kernel⟩, fun i => ?_, by decide +kernel, by decide +kernel, by decide, by decide,
    toy_nondecreasing, toy_saturates⟩
  have : (101 : Byte).toInt = 101 := by decide
  rw [this, toy_at]
  omega

/-- TOY2 meets the clause of a target strictly between two entries whole. -/
theorem witness_TencBetweenEntries : Nondecreasing toy2 ∧ (60 : Byte) ≠ 0 ∧ tempAt toy2 (60 - 1) < (5 : Byte).toInt ∧
    (5 : Byte).toInt < tempAt toy2 60 := by
  refine ⟨fun i j h => ?_, by decide, by decide +kernel, by decide +kernel⟩
  have at2 : ∀ k : Byte, tempAt toy2 k = min 100 (10 * ((k.toNat / 20 : Nat) : Int) - 20) := by
    intro k
    have hk := k.isLt
    simp only [tempAt, toy2, Vector.getElem_ofFn]
    exact s8_u8 _ (by omega)
  rw [BitVec.le_def] at h
  simp only [at2]
  omega

theorem witness_TdecTencLaws :
    Nondecreasing fresh.params.tempTable ∧ (0xEC : Byte).toInt = tempAt fresh.params.tempTable 0x01 ∧
    (∃ i, (0xED : Byte).toInt ≤ tempAt fresh.params.tempTable i) ∧ (0xEC : Byte).toInt ≤ (0xED : Byte).toInt ∧
    outcome (exec (.tenc 0xEC) fresh) = some (.ok (.byte 0)) ∧
    outcome (exec (.tenc 0xED) fresh) = some (.ok (.byte 2)) :=
  ⟨toy_nondecreasing, by decide +kernel, ⟨0xFF, by decide +kernel⟩, by decide, by decide +kernel, by decide +kernel⟩

theorem witness_FdecExactMatch : opField 0x20700000000 = 0x2 ∧
    ((0x02 : Byte) ≠ 0x01 ∧ (0x02 : Byte) ≠ 0x03 ∧ (0x02 : Byte) ≠ 0x07 ∧ (0x02 : Byte) ≠ 0x0F ∧ (0x02 : Byte) ≠ 0x1F ∧
      (0x02 : Byte) ≠ 0x3F ∧ (0x02 : Byte) ≠ 0x7F ∧ (0x02 : Byte) ≠ 0xFF) := by decide

theorem witness_FencTableOrInvalid : opField 0x30300000000 = 0x3 ∧ (0 : Byte).toNat = 0 ∧ 9 ≤ (9 : Byte).toNat := by decide

theorem witness_FdecFencLaws : (1 ≤ (1 : Byte).toNat ∧ (1 : Byte).toNat ≤ 8) ∧ (1 ≤ (8 : Byte).toNat ∧ (8 : Byte).toNat ≤ 8) ∧
    exec (.fdec 0xFF) fresh = .next { fresh with returned := some (.ok (.speed 8)) } ∧
    exec (.fdec 0x02) fresh = .next { fresh with returned := some (.ok (.speed 0)) } :=
  ⟨by decide, by decide, rfl, rfl⟩

theorem witness_UnpkReadsLayoutFields : opField 0x4013A000000 = 0x4 ∧
    fresh.params.layouts.length ≤ (2 : Byte).toNat ∧ fresh.params.layouts[(1 : Byte).toNat]? = some toyprog ∧
    toyprog.fields[1]? = some (.flag "f4" 4) ∧ toyprog.fields[0]? = some (.count "n" 0) :=
  ⟨by decide, by decide, rfl, rfl, rfl⟩

theorem witness_ValueCodecPure : (∃ b, Instr.tdec 0 = .tdec b) ∧ fresh.params = (block none [1]).params := ⟨⟨0, rfl⟩, rfl⟩

theorem witness_CksumReturnsSum : opField 0x50121112907 = 0x5 := by decide

theorem witness_CksumLaws : ([2, 1, 3, 4, 5] : List Byte).Perm [1, 2, 3, 4, 5] := by decide

/-- Five bytes; six under a bad head; six under 0x01 with the right and with a wrong checksum. -/
theorem witness_RxsvcFramesHead : opField 0x60000000000 = 0x6 ∧ (block none [2, 3, 4, 5, 6]).rxq.length < 6 ∧
    (5 ≤ ([1, 2, 3, 4, 5] : List Byte).length ∧ (0 : Byte) ≠ 0x01) ∧
    (block none [0x01, 0, 0, 0, 0, 0x01]).rxq = [0x01, 0, 0, 0, 0, 0x01] ++ [] ∧
    (0x01 : Byte).toNat = (1 + (0 : Byte).toNat + (0 : Byte).toNat + (0 : Byte).toNat + (0 : Byte).toNat) % 256 ∧
    (0x02 : Byte).toNat ≠ (1 + (0 : Byte).toNat + (0 : Byte).toNat + (0 : Byte).toNat + (0 : Byte).toNat) % 256 := by
  decide

/-- Six bytes under 0x01, the sixth right and wrong: each of the two outcomes happens. -/
theorem witness_WireByteOrder : (block none [1, 2, 3, 4, 5, 15, 6]).rxq = [1, 2, 3, 4, 5, 15] ++ [6] ∧
    outcome (exec .rxsvc (block none [1, 2, 3, 4, 5, 15, 6])) = some (.telegram 2 3 4 5) ∧
    outcome (exec .rxsvc (block none [1, 2, 3, 4, 5, 16, 6])) = some (.checksumMismatch 2 3 4 5 16) := by decide +kernel

theorem witness_commands : (Instr.fdec 0).isCommand = true ∧ Instr.fdec 0 ≠ .rxsvc ∧ (Instr.fdec 0).transmits = false ∧
    (Instr.poll 0 0 0).transmits = true ∧ fresh.phase = .idle ∧ fresh.Settled := ⟨rfl, by decide, rfl, rfl, rfl, rfl, rfl⟩

theorem witness_IllegalTelegramStart : (block none [0xFF, 1, 2, 3, 4, 5]).rxq = 0xFF :: [1, 2, 3, 4, 5] ∧
    5 ≤ ([1, 2, 3, 4, 5] : List Byte).length ∧ (0xFF : Byte) ≠ 0x01 := by decide

/-- Each of the four outcomes of a service happens. -/
theorem witness_RxsvcPriority : outcome (exec .rxsvc fresh) = some .noFrame ∧
    outcome (exec .rxsvc (block none [2, 0, 0, 0, 0, 0])) = some (.unexpectedDomainByte 2) ∧
    outcome (exec .rxsvc (block none [1, 0, 0, 0, 0, 0])) = some (.checksumMismatch 0 0 0 0 0) ∧
    outcome (exec .rxsvc (block none [1, 0, 0, 0, 0, 1])) = some (.telegram 0 0 0 0) ∧
    ¬ ValidTelegram ((block none [1, 0, 0, 0, 0, 0]).rxq.take 6) ∧
    ValidTelegram ((block none [1, 0, 0, 0, 0, 1]).rxq.take 6) := by
  refine ⟨by decide +kernel, by decide +kernel, by decide +kernel, by decide +kernel, ?_, ⟨_, _, _, _, _, _, rfl, rfl, rfl⟩⟩
  rintro ⟨t0, t1, t2, t3, t4, t5, h, h0, h5⟩
  obtain ⟨rfl, rfl, rfl, rfl, rfl, rfl⟩ : 1 = t0 ∧ 0 = t1 ∧ 0 = t2 ∧ 0 = t3 ∧ 0 = t4 ∧ 0 = t5 := by
    simpa [block, State.resetWith] using h
  exact absurd h5 (by decide)

theorem witness_TelegramIffValid : (block none [1, 2, 3, 4, 5, 15, 6]).rxq = [1, 2, 3, 4, 5, 15] ++ [6] := rfl

theorem witness_OneTelegramPerService :
    (block none [1, 2, 3, 4, 5, 15, 1, 0, 0, 0, 0, 1, 7]).rxq =
      [(⟨2, 3, 4, 5⟩ : Payload), ⟨0, 0, 0, 0⟩].flatMap Payload.bytes ++ [7] ∧
    (block none [1, 2, 3, 4, 5, 15, 1, 0, 0, 0, 0, 1, 7]).Settled ∧ ([7] : List Byte).length < 6 := by
  refine ⟨by decide, ⟨rfl, rfl⟩, by decide⟩

theorem witness_Resynchronises : (∀ b ∈ ([2, 0] : List Byte), b ≠ 0x01) ∧
    (block none [2, 0, 1, 0, 0, 0, 0, 1, 7]).rxq = [2, 0] ++ (⟨0, 0, 0, 0⟩ : Payload).bytes ++ [7] := by decide

theorem witness_PartialTelegramWaits :
    let s : State := { block none [1, 2, 3, 4, 5] with inputs := [.arrive 15] }
    s.rxq.length < 6 ∧ s.Settled ∧ s.params.rxDepth = none ∧ s.inputs = .arrive 15 :: [] :=
  ⟨by decide, ⟨rfl, rfl⟩, rfl, rfl⟩

theorem witness_TxencAppendsTelegram : opField 0x72811290700 = 0x7 ∧ p2Field 0x72811290700 ≠ 0x00 := by decide

theorem witness_PollIsTxencOfMarker : opField 0x72811002900 = 0x7 ∧ p2Field 0x72811002900 = 0x00 := by decide

theorem witness_TransmitReceiveRoundTrip : (block none [1, 0, 0, 0, 0, 1, 9]).rxq = telegramBytes 0 0 0 0 ++ [9] := by decide

theorem witness_NoFrameIsANoOp : fresh.Settled ∧ fresh.rxq.length < 6 ∧ Instr.rxsvc.isCommand = true ∧
    outcome (exec .rxsvc fresh) = some .noFrame := ⟨⟨rfl, rfl⟩, by decide, rfl, by decide +kernel⟩

theorem witness_ErrorEffects :
    (∃ t, exec (.fenc 0) fresh = .next t ∧ t.returned = some (.invalidArgument 0)) ∧
    (∃ t, exec .rxsvc (block none [2, 0, 0, 0, 0, 0]) = .next t ∧ t.returned = some (.unexpectedDomainByte 2)) ∧
    (∃ t, exec .rxsvc (block none [1, 0, 0, 0, 0, 0]) = .next t ∧ t.returned = some (.checksumMismatch 0 0 0 0 0)) ∧
    (block none [1, 0, 0, 0, 0, 0]).Settled ∧ (block none [2, 0, 0, 0, 0, 0]).Settled ∧ fresh.Settled :=
  ⟨⟨_, rfl, rfl⟩, ⟨_, rfl, rfl⟩, ⟨_, rfl, rfl⟩, ⟨rfl, rfl⟩, ⟨rfl, rfl⟩, ⟨rfl, rfl⟩⟩

theorem witness_FrameNeverReadBeforeWritten : ∃ t, exec .rxsvc (block none [1, 0, 0, 0, 0, 1]) = .next t := ⟨_, rfl⟩

/-- An idle step, an arrival, a command and a telegram: steps that answer and are no restart. -/
theorem witness_steps : (∃ t, step fresh = .next t) ∧ (∃ t, step { fresh with inputs := [.arrive 1] } = .next t) ∧
    (∃ t, step (fresh.withFetchWord 44 0x60000000000) = .next t) ∧
    (∃ t, step (fresh.withFetchWord 48 0x0111209100C3) = .next t) ∧
    (∀ init rest, fresh.inputs ≠ .restart init :: rest) :=
  ⟨⟨_, rfl⟩, ⟨_, rfl⟩, ⟨_, rfl⟩, ⟨_, rfl⟩, fun _ _ h => by cases h⟩

/-- One byte of room, and none. -/
theorem witness_ArrivalAppends :
    (∀ d, (block (some 6) [1, 2, 3, 4, 5]).params.rxDepth = some d → (block (some 6) [1, 2, 3, 4, 5]).rxq.length < d) ∧
    ((block (some 6) [1, 2, 3, 4, 5, 6]).params.rxDepth = some 6 ∧ 6 ≤ (block (some 6) [1, 2, 3, 4, 5, 6]).rxq.length) := by
  refine ⟨fun d h => ?_, rfl, by decide⟩
  cases h
  decide

/-- A depth of exactly six, the least that admits a telegram; and five, which does not. -/
theorem witness_TelegramClasses :
    ((block (some 6) []).rxq = [] ∧ ∀ d, (block (some 6) []).params.rxDepth = some d → (block (some 6) []).rxq.length + 6 ≤ d) ∧
    ((block (some 5) []).params.rxDepth = some 5 ∧ 5 < (block (some 5) []).rxq.length + 6) := by
  refine ⟨⟨rfl, fun d h => ?_⟩, rfl, by decide⟩
  cases h
  decide

theorem witness_TransmitsWhileSuspended :
    ∃ t, exec .rxsvc (block none [0x01, 0x11, 0x20, 0x91, 0x00, 0xC3]) = .next t ∧
      t.returned = some (.telegram 0x11 0x20 0x91 0x00) := ⟨_, rfl, rfl⟩

theorem witness_StepRunsDecodedInstruction :
    (fresh.withFetchWord 44 0x60000000000).inputs = .word (.command 0x60000000000) :: [] ∧
    decode (.command 0x60000000000) = .ok .rxsvc := ⟨rfl, by decide⟩

theorem witness_IdleStepChangesNothing : fresh.inputs = [] := rfl

theorem witness_ReservedOpsRefusedUnusedIgnored : 8 ≤ (opField 0x80000000000).toNat ∧ 8 ≤ (opField 0xFFFFFFFFFFF).toNat ∧
    (fresh.withFetchWord 44 0x80000000000).inputs = .word (.command 0x80000000000) :: [] := ⟨by decide, by decide, rfl⟩

theorem witness_WellFormedTelegramChecksum : (Instr.tgSuspend 0x11 0x20 0x00 0xC3).wellFormed = true ∧
    encode (.tgSuspend 0x11 0x20 0x00 0xC3) = .telegram 0x0111209100C3 := by decide

theorem witness_EncodeDecodeRoundTrip : decode (.command 0x6ABCDEF0123) = .ok .rxsvc ∧
    decode (.telegram 0x0111209100C3) = .ok (.tgSuspend 0x11 0x20 0x00 0xC3) := by decide

theorem witness_NothingSurvivesReset :
    let s : State := { block (some 6) [1, 2] with inputs := [.restart [3]], txq := [9] }
    let t : State := { block (some 6) [4] with inputs := [.restart [3]] }
    s.params = t.params ∧ s.inputs = .restart [3] :: [] ∧ t.inputs = .restart [3] :: [] ∧
      ∀ d, s.params.rxDepth = some d → ([3] : List Byte).length ≤ d := by
  refine ⟨rfl, rfl, rfl, fun d h => ?_⟩
  cases h
  decide

theorem witness_StepKeepsInvariant : fresh.Settled ∧ fresh.WithinDepth ∧ (block (some 6) [1, 2, 3, 4, 5, 6]).WithinDepth := by
  refine ⟨⟨rfl, rfl⟩, (fun d h => by cases h), fun d h => ?_⟩
  cases h
  decide

theorem witness_ResetMeetsInvariant :
    ∀ d, (⟨toy, [], some 6⟩ : Params).rxDepth = some d → ([1, 2, 3, 4, 5, 6] : List Byte).length ≤ d := by
  intro d h
  cases h
  decide

theorem witness_TransmitLogIsWholeTelegrams :
    ({ fresh with txq := [1, 0, 0, 0, 0, 1] } : State).TransmitsWholeTelegrams := ⟨[⟨0, 0, 0, 0⟩], by decide⟩

end Sys2Proof.Tests
end

/-!
Family `00_scope.md` (R13, R14): what a step does with its next event, and the reading of six bytes on the wire as
their arrivals and one receive service (notes/assumptions/11.md).
-/

namespace Sys2Proof.Machine

/-! ### One operation after another -/

@[simp] theorem andThen_next_right (a : Answer) : andThen a .next = a := by
  cases a <;> rfl

theorem andThen_assoc (a : Answer) (k l : State → Answer) :
    andThen (andThen a k) l = andThen a fun s => andThen (k s) l := by
  cases a <;> rfl

/-- The first of the bytes on the wire arrives, the others are received after it. -/
theorem receiveBytes_cons (b : Byte) (bs : List Byte) (s : State) :
    receiveBytes (b :: bs) s = andThen (rxArrive b s) (receiveBytes bs) :=
  andThen_assoc (rxArrive b s) (rxArriveAll bs) rxService

/-- The coming events do not bear on an arrival: a continuation that agrees on two of their lists for every state
agrees after the arrival. -/
theorem andThen_rxArrive_inputs_congr (b : Byte) (s : State) (es fs : List Event) (k l : State → Answer)
    (h : ∀ u : State, k { u with inputs := es } = l { u with inputs := fs }) :
    andThen (rxArrive b { s with inputs := es }) k = andThen (rxArrive b { s with inputs := fs }) l := by
  have hroom : State.roomFor 1 { s with inputs := es } = State.roomFor 1 { s with inputs := fs } := rfl
  rw [rxArrive_eq, rxArrive_eq, hroom]
  split
  · exact h (s.setRxq (s.rxq ++ [b])).silent
  · rfl

/-! ### The step, by its next event -/

theorem step_instruction (s : State) (w : CodeWord) (i : Instr) (rest : List Event) (h : s.inputs = .word w :: rest)
    (hd : decode w = .ok i) : step s = exec i { s with inputs := rest } := by
  rw [step, fetch_instruction s w i rest h hd]

theorem step_arrival (s : State) (b : Byte) (rest : List Event) (h : s.inputs = .arrive b :: rest) :
    step s = rxArrive b { s with inputs := rest } := by
  rw [step, fetch_arrival s b rest h]

theorem step_strayFrame (s : State) (w : TelegramWord) (rest : List Event)
    (h : s.inputs = .word (.telegram w) :: rest) (hd : domainField w ≠ Config.domain) :
    step s = receiveBytes (telegramWordBytes w) { s with inputs := rest } := by
  rw [step, fetch_strayFrame s w rest h hd]

theorem decode_encode_rxsvc : decode (encode .rxsvc) = .ok .rxsvc := by decide

/-- The host issues RXSVC: one receive service (R133). -/
theorem step_rxsvc (s : State) (rest : List Event) (h : s.inputs = .word (encode .rxsvc) :: rest) :
    step s = rxService { s with inputs := rest } :=
  step_instruction s _ .rxsvc rest h decode_encode_rxsvc

/-! ### Six bytes on the wire -/

@[simp] theorem telegramWordBytes_telegramWord (d sn rc c a k : Byte) :
    telegramWordBytes (telegramWord d sn rc c a k) = [d, sn, rc, c, a, k] := by
  simp [telegramWordBytes]

/-- The block does not tell the telegram classes apart (R136): whichever row the command byte names, the telegram is
received. -/
theorem exec_classifyTelegram (sn rc c a k : Byte) (s : State) :
    exec (classifyTelegram sn rc c a k) s = receiveTelegram sn rc c a k s := by
  unfold classifyTelegram
  split_ifs with hpoll hsuspend hresume hfan
  · subst hpoll; rfl
  · subst hsuspend; rfl
  · subst hresume; rfl
  · subst hfan; rfl
  · rfl

/-- A telegram word is received byte by byte, whether its first byte makes it a telegram (R62) or not (R75). -/
theorem step_telegramWord (s : State) (w : TelegramWord) (rest : List Event)
    (h : s.inputs = .word (.telegram w) :: rest) :
    step s = receiveBytes (telegramWordBytes w) { s with inputs := rest } := by
  by_cases hd : domainField w = Config.domain
  · have hdec : decode (.telegram w) = .ok (classifyTelegram (senderField w) (receiverField w) (commandField w)
        (argumentField w) (checksumField w)) := if_pos hd
    rw [step_instruction s _ _ rest h hdec, exec_classifyTelegram, receiveTelegram, frameBytes, ← hd,
      telegramWordBytes]
  · exact step_strayFrame s w rest h hd

/-- Bytes that arrive one by one, with the command RXSVC after them, are received as they are from the wire. -/
theorem stepMany_arrivals_rxsvc (bs : List Byte) (s : State) (rest : List Event) :
    stepMany (bs.length + 1) { s with inputs := bs.map .arrive ++ .word (encode .rxsvc) :: rest } =
      receiveBytes bs { s with inputs := rest } := by
  induction bs generalizing s with
  | nil =>
    change andThen (step _) .next = rxService _
    rw [andThen_next_right, step_rxsvc _ rest rfl]
  | cons b bs ih =>
    change andThen (step _) (stepMany (bs.length + 1)) = _
    rw [step_arrival _ b _ rfl, receiveBytes_cons]
    exact andThen_rxArrive_inputs_congr b s _ rest _ _ ih

/-! ### The obligations -/

/-- Settles O37: both sides are the reception of the six bytes, the left by the decoder's two cases, the right by
induction on the bytes still to arrive. -/
theorem telegramWordIsArrivalsThenService : Obligations.TelegramWordIsArrivalsThenService := by
  intro s d sn rc c a k rest
  rw [step_telegramWord _ _ rest rfl, telegramWordBytes_telegramWord]
  exact (stepMany_arrivals_rxsvc [d, sn, rc, c, a, k] s rest).symm

/-- Settles O41: the fetch of a word that decodes gives the instruction and the state without the event. -/
theorem stepRunsDecodedInstruction : Obligations.StepRunsDecodedInstruction :=
  step_instruction

end Sys2Proof.Machine

/-!
Family `10_state.md` (R20 to R29, R49): what holds between commands, what the transmit log may gain in a step, and
that what `F` and the phase hold when an instruction starts does not bear on it.
-/

namespace Sys2Proof.Machine

/-! ### The depth of the receive queue -/

/-- A queue that has grown by no more than there was room for is within its depth. -/
theorem State.withinDepth_of_roomFor {s t : State} {n : Nat} (hroom : s.roomFor n = true) (hp : t.params = s.params)
    (hlen : t.rxq.length ≤ s.rxq.length + n) : t.WithinDepth := by
  intro d hd
  rw [hp] at hd
  rw [s.roomFor_bounded n d hd, decide_eq_true_eq] at hroom
  exact hlen.trans hroom

/-- A queue within its depth has room for no more bytes than it holds. -/
theorem State.WithinDepth.roomFor_zero {s : State} (h : s.WithinDepth) : s.roomFor 0 = true := by
  rcases hd : s.params.rxDepth with _ | d
  · exact s.roomFor_unbounded 0 hd
  · rw [s.roomFor_bounded 0 d hd, decide_eq_true_eq]
    exact h d hd

/-- Bytes received into a queue with room for them leave it within its depth, whatever it was before. -/
theorem receiveBytes_withinDepth {s t : State} {bs : List Byte} (hne : bs ≠ []) (h : receiveBytes bs s = .next t) :
    t.WithinDepth := by
  obtain ⟨hroom, n, -, hq, -, hp, -⟩ := receiveBytes_effect s t bs hne h
  exact State.withinDepth_of_roomFor hroom hp (by simp [hq])

/-- An instruction removes bytes from the queue, or brings its own only where there is room for them. -/
theorem exec_keeps_withinDepth {s t : State} {i : Instr} (hw : s.WithinDepth) (h : exec i s = .next t) :
    t.WithinDepth := by
  obtain ⟨hp, -, -, -, ⟨n, -, hq⟩ | ⟨sn, rc, c, a, k, n, -, hroom, -, hq⟩⟩ := exec_effect s t i h
  · exact State.withinDepth_of_roomFor hw.roomFor_zero hp (by simp [hq])
  · exact State.withinDepth_of_roomFor hroom hp (by simp [hq])

theorem telegramWordBytes_ne_nil (w : TelegramWord) : telegramWordBytes w ≠ [] :=
  List.cons_ne_nil _ _

theorem step_keeps_withinDepth {s t : State} (hw : s.WithinDepth) (h : step s = .next t) : t.WithinDepth := by
  rcases step_cases s t h with ⟨-, rfl⟩ | ⟨b, rest, -, hroom, rfl⟩ | ⟨init, rest, -, rfl, hfits⟩ |
    ⟨w, i, rest, -, -, hexec⟩ | ⟨w, rest, -, hrecv⟩
  · exact hw
  · exact State.withinDepth_of_roomFor hroom rfl (by simp)
  · exact hfits
  · exact exec_keeps_withinDepth (s := { s with inputs := rest }) hw hexec
  · exact receiveBytes_withinDepth (telegramWordBytes_ne_nil w) hrecv

/-! ### The frame register and the phase between commands -/

/-- Arrivals leave `F` and the phase alone; a restart and every command that uses them end with `F` empty and the
phase Idle. -/
theorem step_keeps_settled {s t : State} (hs : s.Settled) (h : step s = .next t) : t.Settled := by
  rcases step_cases s t h with ⟨-, rfl⟩ | ⟨b, rest, -, -, rfl⟩ | ⟨init, rest, -, rfl, -⟩ |
    ⟨w, i, rest, -, -, hexec⟩ | ⟨w, rest, -, hrecv⟩
  · exact hs
  · exact hs
  · exact ⟨rfl, rfl⟩
  · obtain ⟨-, -, hkeep, -⟩ := exec_effect _ t i hexec
    exact hkeep hs
  · obtain ⟨-, n, -, -, -, -, -, hsettled⟩ := receiveBytes_effect _ t _ (telegramWordBytes_ne_nil w) hrecv
    exact hsettled

/-! ### The transmit log -/

theorem Payload.bytes_valid (p : Payload) : ValidTelegram p.bytes :=
  ⟨_, _, _, _, _, _, rfl, rfl, rfl⟩

/-- A restart clears the transmit log; every other step leaves it or appends one valid telegram. -/
theorem step_txq {s t : State} (h : step s = .next t) :
    (t.txq = [] ∧ ∃ init rest, s.inputs = .restart init :: rest) ∨
      t.txq = s.txq ∨ ∃ p : Payload, t.txq = s.txq ++ p.bytes := by
  rcases step_cases s t h with ⟨-, rfl⟩ | ⟨b, rest, -, -, rfl⟩ | ⟨init, rest, hin, rfl, -⟩ |
    ⟨w, i, rest, -, -, hexec⟩ | ⟨w, rest, -, hrecv⟩
  · exact .inr (.inl rfl)
  · exact .inr (.inl rfl)
  · exact .inl ⟨rfl, init, rest, hin⟩
  · obtain ⟨-, -, -, htx, -⟩ := exec_effect _ t i hexec
    exact .inr htx
  · obtain ⟨-, n, -, -, htx, -⟩ := receiveBytes_effect _ t _ (telegramWordBytes_ne_nil w) hrecv
    exact .inr (.inl htx)

/-! ### Instructions by their kind, in every state -/

theorem exec_of_pureOutcome {s : State} {i : Instr} {o : CommandOutcome} (h : pureOutcome s.params i = some o) :
    exec i s = .next (s.respond o) := by
  cases i <;> cases h <;> rfl

theorem exec_of_transmitted {i : Instr} {sn rc v a : Byte} (h : transmitted i = some (sn, rc, v, a)) (s : State) :
    exec i s = transmit sn rc v a s := by
  cases i <;> cases h <;> rfl

theorem exec_of_received {i : Instr} {sn rc c a k : Byte} (h : received i = some (sn, rc, c, a, k)) (s : State) :
    exec i s = receiveTelegram sn rc c a k s := by
  cases i <;> cases h <;> rfl

/-! ### Another frame register and phase -/

/-- The state with other contents of `F` and of the phase, which no instruction may depend on (D5). -/
def State.withFramePhase (s : State) (f : Frame) (p : Phase) : State := { s with frame := f, phase := p }

theorem rxService_withFramePhase (s : State) (f : Frame) (p : Phase) :
    rxService (s.withFramePhase f p) = rxService s :=
  rxService_congr s _ rfl rfl rfl rfl

theorem receiveTelegram_withFramePhase (sn rc c a k : Byte) (s : State) (f : Frame) (p : Phase) :
    receiveTelegram sn rc c a k (s.withFramePhase f p) = receiveTelegram sn rc c a k s := by
  rcases hroom : s.roomFor 6 with _ | _
  · rw [receiveTelegram_full s _ _ _ _ _ hroom, receiveTelegram_full (s.withFramePhase f p) _ _ _ _ _ hroom]
  · rw [receiveTelegram_room s _ _ _ _ _ hroom, receiveTelegram_room (s.withFramePhase f p) _ _ _ _ _ hroom]
    exact rxService_congr _ _ rfl rfl rfl rfl

theorem transmit_withFramePhase (sn rc v a : Byte) (s : State) (f : Frame) (p : Phase) :
    transmit sn rc v a (s.withFramePhase f p) = transmit sn rc v a s := by
  rw [transmit_eq, transmit_eq]
  rfl

/-- With another `F` and phase an instruction gives the same answer, or it is pure: then it hands on what it found
there and returns the same outcome. -/
theorem exec_withFramePhase (i : Instr) (s : State) (f : Frame) (p : Phase) :
    exec i (s.withFramePhase f p) = exec i s ∨
      ∃ o, exec i s = .next (s.respond o) ∧
        exec i (s.withFramePhase f p) = .next ((s.withFramePhase f p).respond o) := by
  rcases exec_cases s i with ⟨o, hpure, h⟩ | ⟨rfl, -⟩ | ⟨sn, rc, v, a, htx, -⟩ | ⟨sn, rc, c, a, k, hrx, -⟩
  · exact .inr ⟨o, h, exec_of_pureOutcome hpure⟩
  · exact .inl (rxService_withFramePhase s f p)
  · rw [exec_of_transmitted htx, exec_of_transmitted htx]
    exact .inl (transmit_withFramePhase sn rc v a s f p)
  · rw [exec_of_received hrx, exec_of_received hrx]
    exact .inl (receiveTelegram_withFramePhase sn rc c a k s f p)

/-! ### The obligations -/

/-- Settles O51: the two parts of the invariant are each kept by every kind of step. -/
theorem stepKeepsInvariant : Obligations.StepKeepsInvariant :=
  fun _ _ hs hw h => ⟨step_keeps_settled hs h, step_keeps_withinDepth hw h⟩

/-- Settles O32: the answers are equal, or both are those of one pure command. -/
theorem frameNeverReadBeforeWritten : Obligations.FrameNeverReadBeforeWritten := by
  intro i s t f p h
  rcases exec_withFramePhase i s f p with heq | ⟨o, hs, hother⟩
  · exact ⟨t, heq.trans h, rfl, rfl, rfl, rfl, rfl⟩
  · obtain rfl : s.respond o = t := by simpa [hs] using h
    exact ⟨_, hother, rfl, rfl, rfl, rfl, rfl⟩

/-- Settles O34: what a step can do to the transmit log, less the restart. -/
theorem transmitLogIsAppendOnly : Obligations.TransmitLogIsAppendOnly := by
  intro s t h hnorestart
  rcases step_txq h with ⟨-, init, rest, hin⟩ | hsame | ⟨p, happ⟩
  · exact absurd hin (hnorestart init rest)
  · exact .inl hsame
  · exact .inr ⟨p.bytes, happ, p.bytes_valid⟩

end Sys2Proof.Machine

/-!
Family `20_memory.md` (R44, R48 to R55): the order of the bytes on the two queues, where the bytes of the receive
queue come from, and that no step writes a parameter.
-/

namespace Sys2Proof.Machine

/-! ### The open parameters -/

/-- A restart starts again from the parameters it finds; no other kind of step touches them. -/
theorem step_params {s t : State} (h : step s = .next t) : t.params = s.params := by
  rcases step_cases s t h with ⟨-, rfl⟩ | ⟨b, rest, -, -, rfl⟩ | ⟨init, rest, -, rfl, -⟩ |
    ⟨w, i, rest, -, -, hexec⟩ | ⟨w, rest, -, hrecv⟩
  · rfl
  · rfl
  · rfl
  · obtain ⟨hp, -⟩ := exec_effect _ t i hexec
    exact hp
  · obtain ⟨-, n, -, -, -, hp, -⟩ := receiveBytes_effect _ t _ (telegramWordBytes_ne_nil w) hrecv
    exact hp

/-! ### The receive queue -/

/-- One more byte fits unless the queue has a depth and has reached it. -/
theorem State.roomFor_one_iff (s : State) :
    s.roomFor 1 = true ↔ ∀ d, s.params.rxDepth = some d → s.rxq.length < d := by
  rcases hd : s.params.rxDepth with _ | d
  · simp [s.roomFor_unbounded 1 hd]
  · simp [s.roomFor_bounded 1 d hd]

theorem received_decodeTransmit (sn rc v a : Byte) : received (decodeTransmit sn rc v a) = none := by
  unfold decodeTransmit
  split <;> rfl

/-- No command word decodes to a telegram instruction: the two encodings come in at different ports (R60, R70). -/
theorem received_of_decode_command {w : CommandWord} {i : Instr} (h : decode (.command w) = .ok i) :
    received i = none := by
  simp only [decode, decodeCommand] at h
  split at h <;> cases h
  case h_8 => exact received_decodeTransmit _ _ _ _
  all_goals rfl

/-- An instruction that is no telegram brings no bytes: it can only take some from the head of the queue. -/
theorem exec_rxq_of_received_none {s t : State} {i : Instr} (hr : received i = none) (h : exec i s = .next t) :
    ∃ n, (n = 0 ∨ n = 1 ∨ n = 6) ∧ t.rxq = s.rxq.drop n := by
  obtain ⟨-, -, -, -, htaken | ⟨sn, rc, c, a, k, n, hsome, -⟩⟩ := exec_effect s t i h
  · exact htaken
  · simp [hr] at hsome

/-- Six bytes on the wire join the tail of the queue before the service takes bytes from its head. -/
theorem step_telegramWord_rxq {s t : State} {w : TelegramWord} {rest : List Event}
    (hin : s.inputs = .word (.telegram w) :: rest) (h : step s = .next t) :
    ∃ n, (n = 0 ∨ n = 1 ∨ n = 6) ∧ t.rxq = (s.rxq ++ telegramWordBytes w).drop n := by
  rw [step_telegramWord s w rest hin] at h
  obtain ⟨-, n, hn, hq, -⟩ := receiveBytes_effect _ t _ (telegramWordBytes_ne_nil w) h
  exact ⟨n, hn, hq⟩

/-- Everything a step can do to the receive queue: a restart sets it, an arriving byte joins its tail, six bytes on
the wire join its tail and some leave its head, and any other step only takes some from its head. -/
theorem step_rxq {s t : State} (h : step s = .next t) :
    (∃ init rest, s.inputs = .restart init :: rest) ∨
    (∃ b rest, s.inputs = .arrive b :: rest ∧ t.rxq = s.rxq ++ [b]) ∨
    (∃ w rest, s.inputs = .word (.telegram w) :: rest ∧
      ∃ n, (n = 0 ∨ n = 1 ∨ n = 6) ∧ t.rxq = (s.rxq ++ telegramWordBytes w).drop n) ∨
    ∃ n, (n = 0 ∨ n = 1 ∨ n = 6) ∧ t.rxq = s.rxq.drop n := by
  rcases step_cases s t h with ⟨-, rfl⟩ | ⟨b, rest, hin, -, rfl⟩ | ⟨init, rest, hin, -, -⟩ |
    ⟨w | w, i, rest, hin, hdec, hexec⟩ | ⟨w, rest, hin, -⟩
  · exact .inr (.inr (.inr ⟨0, .inl rfl, rfl⟩))
  · exact .inr (.inl ⟨b, rest, hin, rfl⟩)
  · exact .inl ⟨init, rest, hin⟩
  · have hr : received i = none := received_of_decode_command hdec
    exact .inr (.inr (.inr (exec_rxq_of_received_none (s := { s with inputs := rest }) hr hexec)))
  · exact .inr (.inr (.inl ⟨w, rest, hin, step_telegramWord_rxq hin h⟩))
  · exact .inr (.inr (.inl ⟨w, rest, hin, step_telegramWord_rxq hin h⟩))

/-! ### The obligations -/

/-- Settles O33: what a step can do to the receive queue, less the restart. -/
theorem receiveQueueIsFifo : Obligations.ReceiveQueueIsFifo := by
  intro s t h hnorestart
  rcases step_rxq h with ⟨init, rest, hin⟩ | ⟨b, rest, hin, hq⟩ | ⟨w, rest, hin, n, hn, hq⟩ | ⟨n, hn, hq⟩
  · exact absurd hin (hnorestart init rest)
  · exact ⟨[b], 0, .inl rfl, hq, fun _ => .inl ⟨b, rest, hin, rfl, rfl⟩⟩
  · rw [← telegramWord_fields w] at hin
    exact ⟨telegramWordBytes w, n, hn, hq, fun _ => .inr ⟨_, _, _, _, _, _, rest, rfl, hin⟩⟩
  · exact ⟨[], n, hn, by simpa using hq, fun hne => absurd rfl hne⟩

/-- Settles O35: the parameters are those of the state before, by the kinds of step. -/
theorem parametersAreConstant : Obligations.ParametersAreConstant :=
  fun _ _ => step_params

/-- Settles O24: the receive service under the domain byte takes its six bytes in order, and a transmission appends
its telegram. -/
theorem wireByteOrder : Obligations.WireByteOrder := by
  refine ⟨fun s b0 b1 b2 b3 b4 b5 rest hq hb0 => ?_, fun s sn rc v a => ?_⟩
  · subst hb0
    refine ⟨_, rxService_frame s b1 b2 b3 b4 b5 rest hq, rfl, ?_⟩
    by_cases hk : b5 = telegramChecksum b1 b2 b3 b4
    · exact .inl (by simp [hk])
    · exact .inr (by simp [hk])
  · exact ⟨_, _, transmit_eq s sn rc v a, rfl, rfl⟩

/-- Settles O36: the step is the arrival, which asks whether one more byte fits. -/
theorem arrivalAppends : Obligations.ArrivalAppends := by
  intro s b rest hin
  rw [step_arrival s b rest hin, rxArrive_eq]
  have hroom := State.roomFor_one_iff { s with inputs := rest }
  refine ⟨fun hfits => ?_, fun d hd hfull => ?_⟩
  · rw [if_pos (hroom.mpr hfits)]
    rfl
  · exact if_neg fun hone => absurd (hroom.mp hone d hd) hfull.not_gt

end Sys2Proof.Machine

/-!
Family `30_encoding.md` (R61 to R80): what each word decodes to, that decode and encode are inverse up to the spelling
by the most specific row (notes/assumptions/12.md), and what the rows that share words do.
-/

namespace Sys2Proof.Machine

/-! ### Command words, by their op -/

section CommandWords

variable {w : CommandWord}

theorem decode_tdec (h : opField w = 0x0) : decode (.command w) = .ok (.tdec (p0Field w)) := by
  simp [decode, decodeCommand, h]

theorem decode_tenc (h : opField w = 0x1) : decode (.command w) = .ok (.tenc (p0Field w)) := by
  simp [decode, decodeCommand, h]

theorem decode_fdec (h : opField w = 0x2) : decode (.command w) = .ok (.fdec (p0Field w)) := by
  simp [decode, decodeCommand, h]

theorem decode_fenc (h : opField w = 0x3) : decode (.command w) = .ok (.fenc (p0Field w)) := by
  simp [decode, decodeCommand, h]

theorem decode_unpk (h : opField w = 0x4) : decode (.command w) = .ok (.unpk (p0Field w) (p1Field w)) := by
  simp [decode, decodeCommand, h]

theorem decode_cksum (h : opField w = 0x5) :
    decode (.command w) = .ok (.cksum (p0Field w) (p1Field w) (p2Field w) (p3Field w) (p4Field w)) := by
  simp [decode, decodeCommand, h]

theorem decode_rxsvc (h : opField w = 0x6) : decode (.command w) = .ok .rxsvc := by
  simp [decode, decodeCommand, h]

/-- Op 0x7 is a transmission, POLL or TXENC by its variable. -/
theorem decode_transmit (h : opField w = 0x7) :
    decode (.command w) = .ok (decodeTransmit (p0Field w) (p1Field w) (p2Field w) (p3Field w)) := by
  simp [decode, decodeCommand, h]

/-- A command word whose op selects no command does not decode (R78). -/
theorem decode_reserved (h : 8 ≤ (opField w).toNat) :
    decode (.command w) = .error (.reservedCommandCode (opField w).toNat) := by
  simp only [decode, decodeCommand]
  split
  case h_9 => rfl
  all_goals omega

/-- The fetch rejects a command word whose op selects no command (R78). -/
theorem fetch_reserved (s : State) (rest : List Event) (h : s.inputs = .word (.command w) :: rest)
    (hop : 8 ≤ (opField w).toNat) : fetch s = .rejected (.reservedCommandCode (opField w).toNat) := by
  simp [fetch, h, decode_reserved hop]

/-- A command word that decodes is that of one of the eight commands, by its op (R70, R72). The transmission stands
first: it alone has two spellings. -/
theorem decode_command_cases {i : Instr} (h : decode (.command w) = .ok i) :
    (opField w = 0x7 ∧ i = decodeTransmit (p0Field w) (p1Field w) (p2Field w) (p3Field w)) ∨
    (opField w = 0x0 ∧ i = .tdec (p0Field w)) ∨
    (opField w = 0x1 ∧ i = .tenc (p0Field w)) ∨
    (opField w = 0x2 ∧ i = .fdec (p0Field w)) ∨
    (opField w = 0x3 ∧ i = .fenc (p0Field w)) ∨
    (opField w = 0x4 ∧ i = .unpk (p0Field w) (p1Field w)) ∨
    (opField w = 0x5 ∧ i = .cksum (p0Field w) (p1Field w) (p2Field w) (p3Field w) (p4Field w)) ∨
    (opField w = 0x6 ∧ i = .rxsvc) := by
  simp only [decode, decodeCommand] at h
  split at h <;> cases h
  all_goals simp [← BitVec.toNat_inj, *]

end CommandWords

/-! ### Telegram words -/

/-- A telegram word decodes where its first byte is the domain byte (R62), and then to the class of its fields. -/
theorem decode_telegram_eq_ok_iff {w : TelegramWord} {i : Instr} :
    decode (.telegram w) = .ok i ↔ domainField w = Config.domain ∧
      i = classifyTelegram (senderField w) (receiverField w) (commandField w) (argumentField w) (checksumField w) := by
  change decodeTelegram w = .ok i ↔ _
  unfold decodeTelegram
  split_ifs with hd
  · simpa [hd] using eq_comm
  · simp [hd]

/-- The instructions of the five classes, by the five bytes after the domain byte. -/
theorem received_eq_some_iff {i : Instr} {sn rc c a k : Byte} :
    received i = some (sn, rc, c, a, k) ↔
      i = .tgVar sn rc c a k ∨ (i = .tgPoll sn rc a k ∧ c = 0x00) ∨ (i = .tgSuspend sn rc a k ∧ c = 0x91) ∨
        (i = .tgResume sn rc a k ∧ c = 0x8F) ∨ (i = .tgFanspeed sn rc a k ∧ c = 0x29) := by
  constructor
  · intro h
    cases i <;> cases h <;> simp [Config.pollMarker, Config.varSuspend, Config.varResume, Config.varFanspeed]
  · rintro (rfl | ⟨rfl, rfl⟩ | ⟨rfl, rfl⟩ | ⟨rfl, rfl⟩ | ⟨rfl, rfl⟩) <;> rfl

theorem encode_of_received {i : Instr} {sn rc c a k : Byte} (h : received i = some (sn, rc, c, a, k)) :
    encode i = .telegram (telegramWord Config.domain sn rc c a k) := by
  cases i <;> cases h <;> rfl

theorem encode_of_transmitted {i : Instr} {sn rc v a : Byte} (h : transmitted i = some (sn, rc, v, a)) :
    encode i = .command (commandWord 0x7 sn rc v a 0) := by
  cases i <;> cases h <;> rfl

/-- Only the five telegram classes are encoded as telegram words. -/
theorem received_of_encode_telegram {i : Instr} {w : TelegramWord} (h : encode i = .telegram w) :
    ∃ sn rc c a k, received i = some (sn, rc, c, a, k) ∧ w = telegramWord Config.domain sn rc c a k := by
  cases i <;> cases h <;> exact ⟨_, _, _, _, _, rfl, rfl⟩

/-! ### The rows that share words -/

theorem decodeTransmit_pollMarker (sn rc a : Byte) : decodeTransmit sn rc Config.pollMarker a = .poll sn rc a :=
  if_pos rfl

/-- Either spelling of a transmission has the same payload. -/
theorem transmitted_decodeTransmit (sn rc v a : Byte) :
    transmitted (decodeTransmit sn rc v a) = some (sn, rc, v, a) := by
  unfold decodeTransmit
  split_ifs <;> simp [transmitted, *]

/-- Every class of a telegram has the same five bytes. -/
theorem received_classifyTelegram (sn rc c a k : Byte) :
    received (classifyTelegram sn rc c a k) = some (sn, rc, c, a, k) := by
  unfold classifyTelegram
  split_ifs <;> simp [received, *]

theorem mostSpecific_decodeTransmit (sn rc v a : Byte) : (decodeTransmit sn rc v a).mostSpecific = true := by
  unfold decodeTransmit
  split_ifs <;> simp [Instr.mostSpecific, *]

theorem mostSpecific_classifyTelegram (sn rc c a k : Byte) : (classifyTelegram sn rc c a k).mostSpecific = true := by
  unfold classifyTelegram
  split_ifs <;> simp [Instr.mostSpecific, *]

/-- The spelling of a telegram instruction is the class the decoder gives its bytes. -/
theorem respell_of_received {i : Instr} {sn rc c a k : Byte} (h : received i = some (sn, rc, c, a, k)) :
    i.respell = classifyTelegram sn rc c a k := by
  cases i <;> cases h <;> rfl

/-- The spelling of a transmission is the one the decoder gives its payload. -/
theorem respell_of_transmitted {i : Instr} {sn rc v a : Byte} (h : transmitted i = some (sn, rc, v, a)) :
    i.respell = decodeTransmit sn rc v a := by
  cases i <;> cases h <;> rfl

/-- Everything a spelling can be: that of a transmission, that of a telegram, or the instruction itself. -/
theorem respell_cases (i : Instr) :
    (∃ sn rc v a, transmitted i = some (sn, rc, v, a) ∧ i.respell = decodeTransmit sn rc v a) ∨
    (∃ sn rc c a k, received i = some (sn, rc, c, a, k) ∧ i.respell = classifyTelegram sn rc c a k) ∨
    (i.respell = i ∧ i.mostSpecific = true) := by
  cases i
  case txenc | poll => exact .inl ⟨_, _, _, _, rfl, respell_of_transmitted rfl⟩
  case tgVar | tgPoll | tgSuspend | tgResume | tgFanspeed =>
    exact .inr (.inl ⟨_, _, _, _, _, rfl, respell_of_received rfl⟩)
  all_goals exact .inr (.inr ⟨rfl, rfl⟩)

theorem mostSpecific_respell (i : Instr) : i.respell.mostSpecific = true := by
  rcases respell_cases i with ⟨sn, rc, v, a, -, h⟩ | ⟨sn, rc, c, a, k, -, h⟩ | ⟨h, hspec⟩ <;> rw [h]
  · exact mostSpecific_decodeTransmit sn rc v a
  · exact mostSpecific_classifyTelegram sn rc c a k
  · exact hspec

theorem encode_respell (i : Instr) : encode i.respell = encode i := by
  rcases respell_cases i with ⟨sn, rc, v, a, htx, h⟩ | ⟨sn, rc, c, a, k, hrx, h⟩ | ⟨h, -⟩ <;> rw [h]
  · rw [encode_of_transmitted htx, encode_of_transmitted (transmitted_decodeTransmit sn rc v a)]
  · rw [encode_of_received hrx, encode_of_received (received_classifyTelegram sn rc c a k)]

theorem exec_respell (i : Instr) (s : State) : exec i.respell s = exec i s := by
  rcases respell_cases i with ⟨sn, rc, v, a, htx, h⟩ | ⟨sn, rc, c, a, k, hrx, h⟩ | ⟨h, -⟩ <;> rw [h]
  · rw [exec_of_transmitted htx, exec_of_transmitted (transmitted_decodeTransmit sn rc v a)]
  · rw [exec_of_received hrx, exec_classifyTelegram]

/-! ### Decode and encode -/

theorem wellFormed_iff {i : Instr} : i.wellFormed = true ↔ i.mostSpecific = true ∧ i.checksumRight = true :=
  Bool.and_eq_true_iff

theorem decode_encode_of_received {i : Instr} {sn rc c a k : Byte} (h : received i = some (sn, rc, c, a, k)) :
    decode (encode i) = .ok i.respell := by
  rw [encode_of_received h, respell_of_received h, decode_telegram_eq_ok_iff]
  simp

theorem decode_encode_of_transmitted {i : Instr} {sn rc v a : Byte} (h : transmitted i = some (sn, rc, v, a)) :
    decode (encode i) = .ok i.respell := by
  rw [encode_of_transmitted h, respell_of_transmitted h, decode_transmit (opField_commandWord ..)]
  simp

/-- The decoder reads every row's encoding back, spelled by the most specific row. -/
theorem decode_encode (i : Instr) : decode (encode i) = .ok i.respell := by
  cases i
  case tdec b => simp [encode, decode_tdec, Instr.respell]
  case tenc t => simp [encode, decode_tenc, Instr.respell]
  case fdec b => simp [encode, decode_fdec, Instr.respell]
  case fenc v => simp [encode, decode_fenc, Instr.respell]
  case unpk l b => simp [encode, decode_unpk, Instr.respell]
  case cksum b0 b1 b2 b3 b4 => simp [encode, decode_cksum, Instr.respell]
  case rxsvc => exact decode_encode_rxsvc
  case txenc | poll => exact decode_encode_of_transmitted rfl
  case tgVar | tgPoll | tgSuspend | tgResume | tgFanspeed => exact decode_encode_of_received rfl

theorem mostSpecific_of_decode {w : CodeWord} {i : Instr} (h : decode w = .ok i) : i.mostSpecific = true := by
  rcases w with w | w
  · rcases decode_command_cases h with ⟨-, rfl⟩ | ⟨-, rfl⟩ | ⟨-, rfl⟩ | ⟨-, rfl⟩ | ⟨-, rfl⟩ | ⟨-, rfl⟩ | ⟨-, rfl⟩ |
      ⟨-, rfl⟩
    · exact mostSpecific_decodeTransmit _ _ _ _
    all_goals rfl
  · obtain ⟨-, rfl⟩ := decode_telegram_eq_ok_iff.mp h
    exact mostSpecific_classifyTelegram _ _ _ _ _

theorem encode_of_decode_telegram {w : TelegramWord} {i : Instr} (h : decode (.telegram w) = .ok i) :
    encode i = .telegram w := by
  obtain ⟨hd, rfl⟩ := decode_telegram_eq_ok_iff.mp h
  rw [encode_of_received (received_classifyTelegram ..), ← hd, telegramWord_fields]

/-- Settles O45: every row is encoded by its fields, which the decoder reads back. -/
theorem decodeEncodeRoundTrip : Obligations.DecodeEncodeRoundTrip := by
  refine ⟨decode_encode, fun i hwf => ?_⟩
  obtain ⟨hspec, -⟩ := wellFormed_iff.mp hwf
  rw [decode_encode, i.respell_of_mostSpecific hspec]

/-- Settles O46: by the decoder's cases; the operand bytes a command does not use come back zero. -/
theorem encodeDecodeRoundTrip : Obligations.EncodeDecodeRoundTrip := by
  refine ⟨fun _ _ => mostSpecific_of_decode, fun _ _ => encode_of_decode_telegram, fun w i h => ?_⟩
  rcases decode_command_cases h with ⟨hop, rfl⟩ | ⟨hop, rfl⟩ | ⟨hop, rfl⟩ | ⟨hop, rfl⟩ | ⟨hop, rfl⟩ | ⟨hop, rfl⟩ |
    ⟨hop, rfl⟩ | ⟨hop, rfl⟩ <;> rw [hop]
  · rw [encode_of_transmitted (transmitted_decodeTransmit ..)]
    exact ⟨_, _, _, _, _, rfl, by simp⟩
  all_goals exact ⟨_, _, _, _, _, rfl, by simp⟩

/-- Settles O47: the rows that share words differ in nothing the machine does. -/
theorem respellingKeepsEffect : Obligations.RespellingKeepsEffect :=
  fun i s => ⟨exec_respell i s, encode_respell i, mostSpecific_respell i⟩

/-! ### The checksum -/

theorem telegramChecksum_toNat (sn rc c a : Byte) :
    (telegramChecksum sn rc c a).toNat = (1 + sn.toNat + rc.toNat + c.toNat + a.toNat) % 256 :=
  cksum_toNat Config.domain sn rc c a

theorem eq_telegramChecksum_iff (sn rc c a k : Byte) :
    k = telegramChecksum sn rc c a ↔ k.toNat = (1 + sn.toNat + rc.toNat + c.toNat + a.toNat) % 256 := by
  rw [← BitVec.toNat_inj, telegramChecksum_toNat]

theorem checksumRight_iff_of_received {i : Instr} {sn rc c a k : Byte} (h : received i = some (sn, rc, c, a, k)) :
    i.checksumRight = true ↔ k = telegramChecksum sn rc c a := by
  cases i <;> cases h <;> exact decide_eq_true_iff

/-- Settles O44: a telegram word carries the fields of its instruction, whose checksum is right. -/
theorem wellFormedTelegramChecksum : Obligations.WellFormedTelegramChecksum := by
  intro i w hwf henc
  obtain ⟨sn, rc, c, a, k, hr, rfl⟩ := received_of_encode_telegram henc
  obtain ⟨-, hright⟩ := wellFormed_iff.mp hwf
  have hsum := (eq_telegramChecksum_iff sn rc c a k).mp ((checksumRight_iff_of_received hr).mp hright)
  simpa [Config.domain] using hsum

/-! ### The reception of a telegram -/

theorem State.roomFor_eq_true_iff (s : State) (n : Nat) :
    s.roomFor n = true ↔ ∀ d, s.params.rxDepth = some d → s.rxq.length + n ≤ d := by
  rcases hd : s.params.rxDepth with _ | d
  · simp [s.roomFor_unbounded n hd]
  · simp [s.roomFor_bounded n d hd]

/-- A receive service always answers a next state. -/
theorem rxService_answers (s : State) : ∃ t, rxService s = .next t := by
  rcases rxService_cases s with ⟨-, h⟩ | ⟨_, _, -, -, -, h⟩ | ⟨_, _, _, _, _, _, -, -, h⟩ | ⟨_, _, _, _, _, -, h⟩ <;>
    exact ⟨_, h⟩

/-- Settles O38: the six bytes are the whole queue, and the service takes them. -/
theorem telegramClassesAreReceived : Obligations.TelegramClassesAreReceived := by
  intro s sn rc c a k i hempty hdepth hi
  have hroom : s.roomFor 6 = true := (s.roomFor_eq_true_iff 6).mpr (by simpa [hempty] using hdepth)
  have hq : (s.setRxq (s.rxq ++ frameBytes sn rc c a k)).silent.rxq = [Config.domain, sn, rc, c, a, k] := by
    simp [hempty, frameBytes]
  rw [exec_of_received (received_eq_some_iff.mpr hi), receiveTelegram_room s _ _ _ _ _ hroom,
    rxService_frame _ _ _ _ _ _ _ hq]
  simp only [eq_telegramChecksum_iff, ← hempty]
  rfl

/-- Settles O39: with room the telegram is one service on the lengthened queue, without it an overflow. -/
theorem telegramClassesComplete : Obligations.TelegramClassesComplete := by
  intro s sn rc c a k i hi
  rw [exec_of_received (received_eq_some_iff.mpr hi)]
  refine ⟨fun hfits => ?_, fun d hd hfull => ?_⟩
  · have hroom : s.roomFor 6 = true := (s.roomFor_eq_true_iff 6).mpr hfits
    obtain ⟨t, ht⟩ := rxService_answers (s.setRxq (s.rxq ++ frameBytes sn rc c a k))
    obtain ⟨n, -, -, htx, hp, hin, -⟩ := rxService_effect _ t ht
    refine ⟨t, ?_, ht, htx, hp, hin⟩
    rw [receiveTelegram_room s _ _ _ _ _ hroom, ← ht]
    exact rxService_congr _ _ rfl rfl rfl rfl
  · have hroom : s.roomFor 6 = false := by simpa [s.roomFor_bounded 6 d hd] using hfull
    exact receiveTelegram_full s sn rc c a k hroom

/-! ### Single words -/

/-- Settles O43: the fetch rejects a reserved op, and each command's decoding names the fields it reads. -/
theorem reservedOpsRefusedUnusedIgnored : Obligations.ReservedOpsRefusedUnusedIgnored := by
  refine ⟨fun s w rest hop hin => ?_, fun p0 p1 p2 p3 p4 q0 q1 q2 q3 q4 => ?_⟩
  · rw [step, fetch_reserved s rest hin hop]
  · simp [decode_tdec, decode_tenc, decode_fdec, decode_fenc, decode_unpk, decode_rxsvc, decode_transmit]

/-- Settles O15: the service under another head byte than the domain byte. -/
theorem illegalTelegramStart : Obligations.IllegalTelegramStart :=
  fun s d rest hq hlen hd => rxService_unexpected s d rest hq hlen hd

/-- Settles O22: POLL and TXENC of the poll marker are one transmission. -/
theorem pollIsTxencOfMarker : Obligations.PollIsTxencOfMarker := by
  refine ⟨fun w hop hmarker => ?_, fun s sn rc v => ⟨rfl, rfl, _, ?_, transmit_eq s sn rc Config.pollMarker v⟩⟩
  · have hpoll : p2Field w = Config.pollMarker := hmarker
    rw [decode_transmit hop, hpoll, decodeTransmit_pollMarker]
  · simp [telegramChecksum_toNat, Config.pollMarker]

/-- Settles O48: the decoder computes on the twelve words. -/
theorem wordsFromTheSpecDecode : Obligations.WordsFromTheSpecDecode := by
  unfold Obligations.WordsFromTheSpecDecode
  decide

end Sys2Proof.Machine

/-!
Family `40_value_codec.md` (R100 to R114): what the five pure commands return, the search of TENC over the temperature
table, the two directions of the fan table, and the fields of a layout.
-/

namespace Sys2Proof.Machine

/-! ### Pure commands -/

theorem State.respond_inj {s : State} {o o' : CommandOutcome} : s.respond o = s.respond o' ↔ o = o' := by
  simp [State.respond]

/-- What a pure command returns is read off its answer. -/
theorem exec_eq_next_iff_of_pureOutcome {s : State} {i : Instr} {o o' : CommandOutcome}
    (h : pureOutcome s.params i = some o) : exec i s = .next { s with returned := some o' } ↔ o = o' := by
  rw [exec_of_pureOutcome h, ← State.respond_inj (s := s), Host.Outcome.next.injEq]
  rfl

/-- Settles O10: the outcome of a value codec command depends on its operands and the parameters alone. -/
theorem valueCodecPure : Obligations.ValueCodecPure := by
  intro i s t hi hparams
  obtain ⟨o, ho⟩ : ∃ o, pureOutcome s.params i = some o := by
    rcases hi with ⟨b, rfl⟩ | ⟨b, rfl⟩ | ⟨b, rfl⟩ | ⟨b, rfl⟩ | ⟨l, b, rfl⟩ <;> exact ⟨_, rfl⟩
  exact ⟨o, exec_of_pureOutcome ho, exec_of_pureOutcome (hparams ▸ ho)⟩

/-! ### The temperature table -/

section TemperatureTable

variable {table : TempTable} {t : Int} {i : Byte}

theorem tempAt_eq_toInt (table : TempTable) (i : Byte) : tempAt table i = (table[i.toNat]'i.isLt).toInt :=
  s8_eq_toInt _

/-- A non-decreasing table has its greatest entry last. -/
theorem tempAt_last_of_saturates (hmono : Nondecreasing table) (hsat : Saturates table) : tempAt table 0xFF = 100 := by
  obtain ⟨hle, i, hi⟩ := hsat
  have hlast : tempAt table i ≤ tempAt table 0xFF := hmono i 0xFF (by bv_omega)
  have := hle 0xFF
  omega

theorem firstAtOrAbove_of_exists (h : ∃ i, t ≤ tempAt table i) :
    t ≤ tempAt table (firstAtOrAbove table t) ∧ ∀ j < firstAtOrAbove table t, tempAt table j < t := by
  obtain ⟨i, hi⟩ := h
  rcases firstAtOrAbove_spec table t with hfound | ⟨hbelow, -⟩
  · exact hfound
  · exact absurd hi (hbelow i).not_ge

theorem firstAtOrAbove_of_forall_lt (h : ∀ i, tempAt table i < t) : firstAtOrAbove table t = 100 := by
  rcases firstAtOrAbove_spec table t with ⟨hge, -⟩ | ⟨-, hnone⟩
  · exact absurd hge (h _).not_ge
  · exact hnone

/-- The search stops no later than at an entry that qualifies. -/
theorem firstAtOrAbove_le (h : t ≤ tempAt table i) : firstAtOrAbove table t ≤ i := by
  obtain ⟨-, hfirst⟩ := firstAtOrAbove_of_exists ⟨i, h⟩
  exact BitVec.not_lt.mp fun hlt => h.not_gt (hfirst i hlt)

theorem firstAtOrAbove_eq_zero (h : t ≤ tempAt table 0) : firstAtOrAbove table t = 0 :=
  BitVec.le_zero_iff.mp (firstAtOrAbove_le h)

/-- Over a non-decreasing table it is enough to look at the entry before: the search stops at an entry that qualifies
exactly when that one does not. -/
theorem firstAtOrAbove_eq_iff (hmono : Nondecreasing table) (h : t ≤ tempAt table i) :
    firstAtOrAbove table t = i ↔ i = 0 ∨ tempAt table (i - 1) < t := by
  obtain ⟨hge, hfirst⟩ := firstAtOrAbove_of_exists ⟨i, h⟩
  constructor
  · rintro rfl
    exact or_iff_not_imp_left.mpr fun hne => hfirst _ (by bv_omega)
  · rintro (rfl | hprev)
    · exact firstAtOrAbove_eq_zero h
    · by_contra hne
      have hle := firstAtOrAbove_le h
      have hbefore := hmono (firstAtOrAbove table t) (i - 1) (by bv_omega)
      omega

/-- A greater target that some entry reaches is found no earlier. -/
theorem firstAtOrAbove_mono {t' : Int} (hle : t ≤ t') (h : ∃ i, t' ≤ tempAt table i) :
    firstAtOrAbove table t ≤ firstAtOrAbove table t' :=
  firstAtOrAbove_le (hle.trans (firstAtOrAbove_of_exists h).1)

/-- Over a non-decreasing table the search for a temperature of the table finds that temperature. -/
theorem tempAt_firstAtOrAbove_tempAt (hmono : Nondecreasing table) (i : Byte) :
    tempAt table (firstAtOrAbove table (tempAt table i)) = tempAt table i :=
  le_antisymm (hmono _ _ (firstAtOrAbove_le le_rfl)) (firstAtOrAbove_of_exists ⟨i, le_rfl⟩).1

end TemperatureTable

/-! ### TDEC and TENC -/

theorem exec_tdec (b : Byte) (s : State) :
    exec (.tdec b) s = .next { s with returned := some (.ok (.temp (tempAt s.params.tempTable b))) } := rfl

/-- TENC searches for its operand read as signed. -/
theorem exec_tenc (t : Byte) (s : State) :
    exec (.tenc t) s =
      .next { s with returned := some (.ok (.byte (firstAtOrAbove s.params.tempTable t.toInt))) } := by
  rw [← s8_eq_toInt]
  rfl

theorem eq_of_exec_tenc {t r : Byte} {s : State}
    (h : exec (.tenc t) s = .next { s with returned := some (.ok (.byte r)) }) :
    r = firstAtOrAbove s.params.tempTable t.toInt := by
  simpa [← s8_eq_toInt, eq_comm] using (exec_eq_next_iff_of_pureOutcome rfl).mp h

/-- Settles O1: the entry is signed, and a non-decreasing table has its least entry first and its greatest last. -/
theorem tdecReturnsTableEntry : Obligations.TdecReturnsTableEntry := by
  refine ⟨fun _ => decode_tdec, fun s b => ?_⟩
  rw [← tempAt_eq_toInt]
  refine ⟨exec_tdec b s, tempAt_range _ b,
    fun hmono => ⟨hmono _ _ (by bv_omega), hmono _ _ (by bv_omega), fun hsat => ?_⟩⟩
  rw [exec_tdec, tempAt_last_of_saturates hmono hsat]

/-- Settles O2: by what the search finds. -/
theorem tencReturnsFirstIndexAtOrAbove : Obligations.TencReturnsFirstIndexAtOrAbove := by
  refine ⟨fun _ => decode_tenc, fun s t => ⟨_, exec_tenc t s, firstAtOrAbove_of_exists, firstAtOrAbove_of_forall_lt,
    firstAtOrAbove_eq_zero, fun i _ hmono hprev hlt => ?_, fun hmin => ?_, fun hsat hmax => ?_⟩⟩
  · exact (firstAtOrAbove_eq_iff hmono hlt.le).mpr (.inr hprev)
  · obtain ⟨hlow, -⟩ := tempAt_range s.params.tempTable 0
    exact firstAtOrAbove_eq_zero (hmin.trans_le hlow)
  · obtain ⟨hle, -⟩ := hsat
    refine firstAtOrAbove_of_forall_lt fun i => ?_
    have := hle i
    omega

/-- Settles O3: over a non-decreasing table the search finds the first entry of a temperature's flat region. -/
theorem tdecTencLaws : Obligations.TdecTencLaws := by
  intro s hmono
  refine ⟨fun i t ht => ?_, fun t hreach => ?_, fun t t' r r' hle hreach hr hr' => ?_⟩
  · refine ⟨_, exec_tenc t s, ?_⟩
    rw [ht]
    exact ⟨tempAt_firstAtOrAbove_tempAt hmono i, firstAtOrAbove_le le_rfl, firstAtOrAbove_eq_iff hmono le_rfl⟩
  · refine ⟨_, _, exec_tenc t s, exec_tdec _ s, (firstAtOrAbove_of_exists hreach).1, fun h => ⟨_, h⟩, ?_⟩
    rintro ⟨i, hi⟩
    rw [← hi]
    exact tempAt_firstAtOrAbove_tempAt hmono i
  · rw [eq_of_exec_tenc hr, eq_of_exec_tenc hr']
    exact firstAtOrAbove_mono hle hreach

/-! ### The fan table -/

/-- A byte is an entry of the fan table or no speed (R104). -/
theorem speedOf_cases (b : Byte) : (∃ k : Fin 8, Config.fanTable[k] = b ∧ speedOf b = k + 1) ∨ speedOf b = 0 := by
  by_cases h : ∃ k : Fin 8, Config.fanTable[k] = b
  · obtain ⟨k, rfl⟩ := h
    exact .inl ⟨k, rfl, speedOf_fanTable k⟩
  · exact .inr (speedOf_unrecognised b (not_exists.mp h))

/-- FENC of a speed 1..8 is the entry at the speed less one (R105). -/
theorem fanWireByte_succ (k : Fin 8) : fanWireByte (BitVec.ofNat 8 (k + 1)) = .ok (.byte Config.fanTable[k]) := by
  revert k; decide

theorem speedOf_of_eq_fanTable {b : Byte} (k : Fin 8) (h : b = Config.fanTable[k]) : speedOf b = k + 1 :=
  h ▸ speedOf_fanTable k

theorem fanWireByte_of_eq_succ {v : Byte} (k : Fin 8) (h : v = BitVec.ofNat 8 (k + 1)) :
    fanWireByte v = .ok (.byte Config.fanTable[k]) :=
  h ▸ fanWireByte_succ k

/-- Settles O4: FDEC inverts the fan table, and gives 0 for a byte that is not in it. -/
theorem fdecExactMatch : Obligations.FdecExactMatch := by
  refine ⟨fun _ => decode_fdec, fun s b => ⟨speedOf b, rfl, speedOf_of_eq_fanTable 0, speedOf_of_eq_fanTable 1,
    speedOf_of_eq_fanTable 2, speedOf_of_eq_fanTable 3, speedOf_of_eq_fanTable 4, speedOf_of_eq_fanTable 5,
    speedOf_of_eq_fanTable 6, speedOf_of_eq_fanTable 7, fun hother => speedOf_unrecognised b fun k hk => ?_⟩⟩
  subst hk
  revert k; decide

/-- Settles O6: FENC reads the fan table for 1..8 and is an invalid argument for the rest. -/
theorem fencTableOrInvalid : Obligations.FencTableOrInvalid :=
  ⟨fun _ => decode_fenc, fun _ v => ⟨fanWireByte v, rfl, fanWireByte_of_eq_succ 0, fanWireByte_of_eq_succ 1,
    fanWireByte_of_eq_succ 2, fanWireByte_of_eq_succ 3, fanWireByte_of_eq_succ 4, fanWireByte_of_eq_succ 5,
    fanWireByte_of_eq_succ 6, fanWireByte_of_eq_succ 7, fun _ => fanWireByte_invalid v (by omega)⟩⟩

/-- Settles O7: the two directions of the fan table are inverse on its entries, and 0 is no speed of FENC. -/
theorem fdecFencLaws : Obligations.FdecFencLaws := by
  refine ⟨fun s v hlow hhigh => ?_, fun s b n hdec => ?_⟩
  · have hspeed := speedOf_fanTable ⟨v.toNat - 1, by omega⟩
    rw [Nat.sub_add_cancel hlow] at hspeed
    refine ⟨_, (exec_eq_next_iff_of_pureOutcome rfl).mpr (fanWireByte_valid v ⟨hlow, hhigh⟩), ?_⟩
    exact (exec_eq_next_iff_of_pureOutcome rfl).mpr (congrArg (CommandOutcome.ok <| .speed ·) hspeed)
  · obtain rfl : speedOf b = n := by simpa using (exec_eq_next_iff_of_pureOutcome rfl).mp hdec
    rcases speedOf_cases b with ⟨k, hk, hspeed⟩ | hspeed
    · rw [hspeed, if_neg k.val.succ_ne_zero, ← hk]
      exact (exec_eq_next_iff_of_pureOutcome rfl).mpr (fanWireByte_succ k)
    · rw [hspeed, if_pos rfl]
      exact (exec_eq_next_iff_of_pureOutcome rfl).mpr (fanWireByte_invalid 0 (by decide))

/-! ### The fields of a layout -/

/-- A flag is true where its bit is 1 (R109). -/
theorem fieldValue_flag_eq_decide (n : String) (i : Fin 8) (b : Byte) :
    fieldValue (.flag n i) b = .flag (decide (b.toNat / 2 ^ i.val % 2 = 1)) := by
  rw [fieldValue_flag, BitVec.getLsbD, Nat.testBit_eq_decide_div_mod_eq]

/-- Settles O8: the values are those of the layout's fields, one by one. -/
theorem unpkReadsLayoutFields : Obligations.UnpkReadsLayoutFields := by
  refine ⟨fun _ => decode_unpk, fun s l b => ⟨fun hnone => ?_, fun lay hlay => ?_⟩⟩
  · exact (exec_eq_next_iff_of_pureOutcome rfl).mpr (unpack_unnamed _ l b hnone)
  · refine ⟨_, (exec_eq_next_iff_of_pureOutcome rfl).mpr (unpack_named _ l b lay hlay), List.length_map _,
      fun k name i hk => ?_, fun k name lsb hk => ?_⟩
    · rw [List.getElem?_map, hk, Option.map_some, fieldValue_flag_eq_decide]
    · rw [List.getElem?_map, hk, Option.map_some, fieldValue_count]

/-- Layout 0 is `BITS8` whatever the parameters are (R112). -/
theorem unpack_layouts_zero (p : Params) (b : Byte) :
    unpack p.layouts 0 b = .ok (.fields
      [.flag b[0], .flag b[1], .flag b[2], .flag b[3], .flag b[4], .flag b[5], .flag b[6], .flag b[7]]) :=
  unpack_named p.layouts 0 b Layout.bits8 rfl

/-- Settles O9: the fields of `BITS8` are the bits of the byte, and those of 0xA5 compute. -/
theorem unpkBits8 : Obligations.UnpkBits8 := by
  intro s b
  exact ⟨(exec_eq_next_iff_of_pureOutcome rfl).mpr (unpack_layouts_zero s.params b),
    (exec_eq_next_iff_of_pureOutcome rfl).mpr (unpack_layouts_zero s.params 0xA5)⟩

end Sys2Proof.Machine

/-!
Family `41_telegram_codec.md` (R130 to R144): the checksum and its laws, what one receive service frames and consumes,
what a run of services delivers, and the whole telegrams a transmission leaves in the transmit log.
-/

namespace Sys2Proof.Machine

/-! ### The transmit log -/

theorem State.TransmitsWholeTelegrams.append {s t : State} {p : Payload} (hs : s.TransmitsWholeTelegrams)
    (h : t.txq = s.txq ++ p.bytes) : t.TransmitsWholeTelegrams := by
  obtain ⟨ps, hps⟩ := hs
  exact ⟨ps ++ [p], by simp [h, hps]⟩

theorem step_keeps_transmitsWholeTelegrams {s t : State} (hs : s.TransmitsWholeTelegrams) (h : step s = .next t) :
    t.TransmitsWholeTelegrams := by
  rcases step_txq h with ⟨hempty, -⟩ | hsame | ⟨p, happ⟩
  · exact ⟨[], hempty⟩
  · obtain ⟨ps, hps⟩ := hs
    exact ⟨ps, hsame.trans hps⟩
  · exact hs.append happ

/-- Settles O53: the log is empty at reset, and a step clears it, leaves it or appends one telegram. -/
theorem transmitLogIsWholeTelegrams : Obligations.TransmitLogIsWholeTelegrams :=
  ⟨⟨[], rfl⟩, fun _ _ => step_keeps_transmitsWholeTelegrams⟩

/-! ### The checksum -/

/-- A byte read as signed is the byte read as unsigned, modulo 256. -/
theorem s8_emod (b : Byte) : s8 b % 256 = b.toNat := by
  have := b.isLt
  unfold s8
  split <;> omega

theorem cksum_eq_sum (b0 b1 b2 b3 b4 : Byte) : cksum b0 b1 b2 b3 b4 = [b0, b1, b2, b3, b4].sum := by
  simp [cksum_eq_add, add_assoc]

/-- Summing the five bytes as signed gives the same byte (D21). -/
theorem cksum_toNat_eq_signed (b0 b1 b2 b3 b4 : Byte) :
    ((cksum b0 b1 b2 b3 b4).toNat : Int) = (s8 b0 + s8 b1 + s8 b2 + s8 b3 + s8 b4) % 256 := by
  have := s8_emod b0; have := s8_emod b1; have := s8_emod b2; have := s8_emod b3; have := s8_emod b4
  rw [cksum_toNat]
  omega

/-- Settles O12: the checksum is a sum of bytes, which has no order, and no reading of a byte changes it modulo 256. -/
theorem cksumLaws : Obligations.CksumLaws := by
  refine fun b0 b1 b2 b3 b4 => ⟨cksum_eq_add .., fun c0 c1 c2 c3 c4 hperm => ?_, cksum_toNat_eq_signed ..⟩
  rw [cksum_eq_sum, cksum_eq_sum, hperm.sum_eq]

/-- Settles O11: what CKSUM returns is the sum, and its three examples compute. -/
theorem cksumReturnsSum : Obligations.CksumReturnsSum :=
  ⟨fun _ => decode_cksum, fun _ _ _ _ _ _ => ⟨_, rfl, cksum_toNat ..⟩, fun _ => ⟨rfl, rfl, rfl⟩⟩

/-! ### Valid telegrams -/

theorem validTelegram_iff (t0 t1 t2 t3 t4 t5 : Byte) :
    ValidTelegram [t0, t1, t2, t3, t4, t5] ↔ t0 = Config.domain ∧ t5 = cksum t0 t1 t2 t3 t4 := by
  constructor
  · rintro ⟨_, _, _, _, _, _, heq, hdomain, hsum⟩
    cases heq
    exact ⟨hdomain, hsum⟩
  · rintro ⟨hdomain, hsum⟩
    exact ⟨_, _, _, _, _, _, rfl, hdomain, hsum⟩

theorem validTelegram_frameBytes_iff (sn rc c a k : Byte) :
    ValidTelegram (frameBytes sn rc c a k) ↔ k = telegramChecksum sn rc c a := by
  simp [frameBytes, validTelegram_iff, telegramChecksum]

theorem validTelegram_iff_exists_payload (t : List Byte) : ValidTelegram t ↔ ∃ p : Payload, p.bytes = t := by
  constructor
  · rintro ⟨_, sn, rc, c, a, _, rfl, rfl, rfl⟩
    exact ⟨⟨sn, rc, c, a⟩, rfl⟩
  · rintro ⟨p, rfl⟩
    exact p.bytes_valid

@[simp] theorem Payload.bytes_length (p : Payload) : p.bytes.length = 6 := rfl

theorem Payload.bytes_injective : Function.Injective Payload.bytes := by
  rintro ⟨sn, rc, c, a⟩ ⟨sn', rc', c', a'⟩ h
  cases h
  rfl

/-! ### One receive service -/

/-- The six bytes of a valid telegram at the head of the queue are delivered. -/
theorem rxService_telegram {s : State} {p : Payload} {rest : List Byte} (hq : s.rxq = p.bytes ++ rest) :
    rxService s = .next ((s.setRxq rest).finish p.delivered) := by
  rw [rxService_frame s _ _ _ _ _ rest hq, if_pos rfl]
  rfl

theorem State.finish_inj {s : State} {o o' : CommandOutcome} : s.finish o = s.finish o' ↔ o = o' := by
  simp [State.finish]

/-- Settles O13: the three cases of the service; the checksum is the sum modulo 256. -/
theorem rxsvcFramesHead : Obligations.RxsvcFramesHead := by
  refine ⟨fun _ => decode_rxsvc, fun s => ⟨rxService_short s, rxService_unexpected s, fun sn rc c a k rest hq => ?_⟩⟩
  have hframe := rxService_frame s sn rc c a k rest hq
  rw [ne_eq, ← eq_telegramChecksum_iff]
  refine ⟨fun hright => ?_, fun hwrong => ?_⟩
  · rw [if_pos hright] at hframe
    exact hframe
  · rw [if_neg hwrong] at hframe
    exact hframe

/-- Settles O17: under the domain byte the checksum decides; under another byte the outcome is no telegram. -/
theorem telegramIffValid : Obligations.TelegramIffValid := by
  refine ⟨fun s t0 t1 t2 t3 t4 t5 rest hq => ?_, validTelegram_iff_exists_payload,
    fun _ _ h => Payload.bytes_injective h⟩
  change rxService s = .next ((s.setRxq rest).finish (.telegram t1 t2 t3 t4)) ↔ _
  rw [validTelegram_iff]
  by_cases hd : t0 = Config.domain
  · subst hd
    rw [rxService_frame s t1 t2 t3 t4 t5 rest hq, Host.Outcome.next.injEq, State.finish_inj, telegramChecksum]
    split_ifs with hk <;> simp [hk]
  · rw [rxService_unexpected s t0 _ hq (by simp) hd]
    simp [hd, State.finish]

/-! ### The commands that are no service -/

/-- A command other than RXSVC is pure or a transmission. -/
theorem pure_or_transmitted_of_command {i : Instr} (hc : i.isCommand = true) (hne : i ≠ .rxsvc) (p : Params) :
    (∃ o, pureOutcome p i = some o) ∨ ∃ sn rc v a, transmitted i = some (sn, rc, v, a) := by
  cases i
  case rxsvc => exact absurd rfl hne
  case txenc | poll => exact .inr ⟨_, _, _, _, rfl⟩
  case tdec | tenc | fdec | fenc | unpk | cksum => exact .inl ⟨_, rfl⟩
  all_goals cases hc

/-- A command other than RXSVC neither reads nor changes the receive queue (R130), and it ends in Idle where it starts
there (R144). -/
theorem exec_command {i : Instr} (hc : i.isCommand = true) (hne : i ≠ .rxsvc) (s : State) :
    ∃ t : State, exec i s = .next t ∧ t.rxq = s.rxq ∧ (s.phase = .idle → t.phase = .idle) ∧
      ∀ q, exec i (s.setRxq q) = .next (t.setRxq q) := by
  rcases pure_or_transmitted_of_command hc hne s.params with ⟨o, ho⟩ | ⟨sn, rc, v, a, htx⟩
  · exact ⟨s.respond o, exec_of_pureOutcome ho, rfl, id, fun q => exec_of_pureOutcome (s := s.setRxq q) ho⟩
  · have hall (u : State) := (exec_of_transmitted htx u).trans (transmit_eq u sn rc v a)
    exact ⟨_, hall s, rfl, fun _ => rfl, fun q => hall (s.setRxq q)⟩

theorem transmits_iff {i : Instr} : i.transmits = true ↔ ∃ sn rc v a, transmitted i = some (sn, rc, v, a) := by
  cases i <;> simp [Instr.transmits, transmitted]

/-- An instruction that does not transmit leaves the transmit log alone. -/
theorem exec_txq_of_not_transmits {i : Instr} {s t : State} (hi : i.transmits = false) (h : exec i s = .next t) :
    t.txq = s.txq := by
  rcases exec_cases s i with ⟨o, -, h'⟩ | ⟨-, h'⟩ | ⟨sn, rc, v, a, htx, -⟩ | ⟨sn, rc, c, a, k, -, h'⟩
  · rw [h'] at h
    cases h
    rfl
  · obtain ⟨n, -, -, htx, -⟩ := rxService_effect s t (h' ▸ h)
    exact htx
  · simp [transmits_iff.mpr ⟨sn, rc, v, a, htx⟩] at hi
  · obtain ⟨-, n, -, -, htx, -⟩ := receiveBytes_effect s t _ (by simp [frameBytes]) (h' ▸ h)
    exact htx

/-- Settles O14: by the four ways of a service, and since the other commands leave the receive queue. -/
theorem rxsvcConsumption : Obligations.RxsvcConsumption := by
  refine ⟨fun s => ?_, fun i s hc hne => ?_⟩
  · rcases rxService_cases s with ⟨-, h⟩ | ⟨d, rest, hq, -, -, h⟩ | ⟨sn, rc, c, a, k, rest, hq, -, h⟩ |
      ⟨sn, rc, c, a, rest, hq, h⟩
    · exact ⟨_, _, 0, h, rfl, by simp, rfl, .inl ⟨rfl, rfl⟩⟩
    · exact ⟨_, _, 1, h, rfl, by simp [hq], by simp [hq], .inr (.inl ⟨⟨d, rfl⟩, rfl⟩)⟩
    · exact ⟨_, _, 6, h, rfl, by simp [hq], by simp [hq], .inr (.inr (.inl ⟨⟨sn, rc, c, a, k, rfl⟩, rfl⟩))⟩
    · exact ⟨_, _, 6, h, rfl, by simp [hq], by simp [hq], .inr (.inr (.inr ⟨⟨sn, rc, c, a, rfl⟩, rfl⟩))⟩
  · obtain ⟨t, h, hq, -⟩ := exec_command hc hne s
    exact ⟨t, h, hq⟩

/-- Settles O25: CKSUM is pure, the commands other than RXSVC commute with a change of the receive queue, and what
does not transmit leaves the log. -/
theorem onlyRxsvcReadsOnlyTxencWrites : Obligations.OnlyRxsvcReadsOnlyTxencWrites := by
  refine ⟨fun _ b0 b1 b2 b3 b4 => ⟨.ok (.byte (cksum b0 b1 b2 b3 b4)), fun _ => ⟨rfl, rfl⟩⟩,
    fun i s hc hne q => ?_, fun _ _ _ => exec_txq_of_not_transmits, fun i s t hi h => ?_⟩
  · obtain ⟨t, h, hq, -, hqueue⟩ := exec_command hc hne s
    exact ⟨t, h, hq, hqueue q⟩
  · rcases hi with rfl | htransmits
    · obtain ⟨n, -, -, -, -, -, hframe, -⟩ := rxService_effect s t h
      exact hframe
    · obtain ⟨sn, rc, v, a, htx⟩ := transmits_iff.mp htransmits
      rw [exec_of_transmitted htx, transmit_eq] at h
      cases h
      rfl

/-- Settles O26: by the four ways of a service, each under its own conditions, and since the other commands keep the
phase at Idle. -/
theorem receptionTransitions : Obligations.ReceptionTransitions := by
  refine ⟨fun s _ => ?_, fun i s hc hne hidle => ?_⟩
  · rcases rxService_cases s with ⟨hlen, h⟩ | ⟨d, rest, hq, hlen, hd, h⟩ | ⟨sn, rc, c, a, k, rest, hq, hk, h⟩ |
      ⟨sn, rc, c, a, rest, hq, h⟩ <;> refine ⟨_, _, h, rfl, rfl, ?_⟩
    · exact ⟨fun _ => ⟨rfl, rfl⟩, fun hsix => absurd hlen hsix.not_gt⟩
    · have hhead : s.rxq.head? ≠ some 0x01 := by simpa [hq, Config.domain] using hd
      have hsix : ¬ s.rxq.length < 6 := by rw [hq, List.length_cons]; omega
      exact ⟨fun hshort => absurd hshort hsix, fun _ => ⟨fun _ => ⟨⟨d, rfl⟩, by simp [hq]⟩,
        fun hdomain => absurd hdomain hhead, fun hdomain => absurd hdomain hhead⟩⟩
    · have hhead : s.rxq.head? = some 0x01 := by rw [hq]; rfl
      have hwrong : ¬ ValidTelegram (s.rxq.take 6) := by
        rwa [hq, frameBytes_take, validTelegram_frameBytes_iff]
      exact ⟨fun hshort => by simp [rxAvail, hq] at hshort, fun _ => ⟨fun hother => absurd hhead hother,
        fun _ _ => ⟨⟨sn, rc, c, a, k, rfl⟩, by simp [hq]⟩, fun _ hvalid => absurd hvalid hwrong⟩⟩
    · have hhead : s.rxq.head? = some 0x01 := by rw [hq]; rfl
      have hvalid : ValidTelegram (s.rxq.take 6) := by
        rw [hq, telegramBytes_take]
        exact Payload.bytes_valid ⟨sn, rc, c, a⟩
      exact ⟨fun hshort => by simp [rxAvail, hq] at hshort, fun _ => ⟨fun hother => absurd hhead hother,
        fun _ hwrong => absurd hvalid hwrong, fun _ _ => ⟨⟨sn, rc, c, a, rfl⟩, by simp [hq]⟩⟩⟩
  · obtain ⟨t, h, -, hphase, -⟩ := exec_command hc hne s
    exact ⟨t, h, hphase hidle⟩

/-! ### Runs of services -/

theorem runCommands_cons {i : Instr} {is : List Instr} {s t u : State} {o : CommandOutcome} {os : List CommandOutcome}
    (h : exec i s = .next t) (ho : t.returned = some o) (hrest : runCommands is t = some (os, u)) :
    runCommands (i :: is) s = some (o :: os, u) := by
  simp [runCommands, h, ho, hrest]

/-- One service, and then as many more. -/
theorem runCommands_replicate_succ {n : Nat} {q : List Byte} {s t : State} {o : CommandOutcome}
    {os : List CommandOutcome} (h : rxService s = .next ((s.setRxq q).finish o))
    (hrest : runCommands (List.replicate n .rxsvc) ((s.setRxq q).finish o) = some (os, t)) :
    runCommands (List.replicate (n + 1) .rxsvc) s = some (o :: os, t) := by
  rw [List.replicate_succ]
  exact runCommands_cons h rfl hrest

/-- As many services as there are telegrams pending deliver them, whatever the services after them do. -/
theorem runCommands_telegrams (ps : List Payload) (tail : List Byte) (s : State)
    (hq : s.rxq = ps.flatMap Payload.bytes ++ tail) (hs : s.Settled) :
    ∃ t : State, (t.rxq = tail ∧ t.txq = s.txq ∧ t.params = s.params ∧ t.inputs = s.inputs ∧ t.Settled) ∧
      ∀ n os u, runCommands (List.replicate n .rxsvc) t = some (os, u) →
        runCommands (List.replicate (ps.length + n) .rxsvc) s = some (ps.map Payload.delivered ++ os, u) := by
  induction ps generalizing s with
  | nil => exact ⟨s, ⟨hq, rfl, rfl, rfl, hs⟩, fun n os u h => by simpa using h⟩
  | cons p ps ih =>
    have hp : s.rxq = p.bytes ++ (ps.flatMap Payload.bytes ++ tail) := by simpa using hq
    obtain ⟨t, hkept, hrun⟩ := ih ((s.setRxq (ps.flatMap Payload.bytes ++ tail)).finish p.delivered) rfl ⟨rfl, rfl⟩
    refine ⟨t, hkept, fun n os u h => ?_⟩
    rw [List.length_cons, Nat.succ_add]
    exact runCommands_replicate_succ (rxService_telegram hp) (hrun n os u h)

/-- Settles O18: the telegrams are delivered in order, and one more service finds what is left too short. -/
theorem oneTelegramPerService : Obligations.OneTelegramPerService := by
  intro ps tail s hq hs
  obtain ⟨t, ⟨htail, hkept⟩, hrun⟩ := runCommands_telegrams ps tail s hq hs
  refine ⟨⟨t, by simpa using hrun 0 [] t rfl, htail, hkept⟩, fun hshort => ?_⟩
  have hnoFrame : rxService t = .next ((t.setRxq t.rxq).finish .noFrame) := rxService_short t (htail ▸ hshort)
  obtain ⟨htx, hparams, hinputs, -⟩ := hkept
  exact ⟨t.finish .noFrame, hrun 1 _ _ (runCommands_replicate_succ hnoFrame rfl), htail, htx, hparams, hinputs, rfl,
    rfl⟩

/-- Settles O19: by induction on the junk, one byte a service, each with the telegram's six bytes behind it. -/
theorem resynchronises : Obligations.Resynchronises := by
  intro junk p tail s hjunk hq
  induction junk generalizing s with
  | nil =>
    exact ⟨_, runCommands_replicate_succ (rxService_telegram hq) rfl, rfl, rfl, rfl⟩
  | cons b junk ih =>
    obtain ⟨hb, hjunk⟩ := List.forall_mem_cons.mp hjunk
    have hlen : 5 ≤ (junk ++ p.bytes ++ tail).length := by simp; omega
    obtain ⟨t, hrun, hkept⟩ := ih ((s.setRxq (junk ++ p.bytes ++ tail)).finish (.unexpectedDomainByte b)) hjunk rfl
    exact ⟨t, runCommands_replicate_succ (rxService_unexpected s b _ hq hlen hb) hrun, hkept⟩

/-! ### The transmission -/

theorem decodeTransmit_of_ne {sn rc v a : Byte} (h : v ≠ Config.pollMarker) :
    decodeTransmit sn rc v a = .txenc sn rc v a :=
  if_neg h

/-- Settles O21: a transmission appends its telegram, whose checksum is the sum, and the example computes. -/
theorem txencAppendsTelegram : Obligations.TxencAppendsTelegram := by
  refine ⟨fun w hop hv => ?_, fun s sn rc v a => ⟨_, telegramChecksum_toNat sn rc v a, transmit_eq s sn rc v a⟩,
    fun s => transmit_eq s 0x11 0x20 0x91 0x00⟩
  rw [decode_transmit hop, decodeTransmit_of_ne hv]

/-- Settles O23: a transmission appends the telegram of its operands, which a service delivers. -/
theorem transmitReceiveRoundTrip : Obligations.TransmitReceiveRoundTrip :=
  fun s sn rc v a => ⟨Payload.bytes ⟨sn, rc, v, a⟩, _, transmit_eq s sn rc v a, rfl, rfl, Payload.bytes_valid _,
    fun _ _ => rxService_telegram⟩

end Sys2Proof.Machine

/-!
Family `60_exceptions.md` (R160 to R173): which outcome a command returns and what it leaves of the state, that no
outcome bears on the next instruction, and that no step faults.
-/

namespace Sys2Proof.Machine

/-! ### The receive service, by the tests it makes -/

/-- The test of the checksum comes last: a valid telegram at the head has passed the test of the count and that of the
domain byte. -/
theorem six_le_and_head_of_valid_take {q : List Byte} (h : ValidTelegram (q.take 6)) :
    6 ≤ q.length ∧ q.head? = some Config.domain := by
  obtain ⟨_, t1, t2, t3, t4, t5, htake, rfl, -⟩ := h
  have hlen : (q.take 6).length = 6 := by rw [htake]; rfl
  have hhead : (q.take 6).head? = some Config.domain := by rw [htake]; rfl
  exact ⟨by simpa using hlen, by simpa [List.head?_take] using hhead⟩

/-- Everything a receive service can do, by what R166's tests find in the queue. -/
theorem rxService_cases_by_tests (s : State) :
    (s.rxq.length < 6 ∧ rxService s = .next (s.finish .noFrame)) ∨
    (∃ d, (6 ≤ s.rxq.length ∧ s.rxq.head? = some d ∧ d ≠ Config.domain) ∧
      rxService s = .next ((s.setRxq (s.rxq.drop 1)).finish (.unexpectedDomainByte d))) ∨
    (∃ sn rc c a k, (6 ≤ s.rxq.length ∧ s.rxq.head? = some Config.domain ∧ ¬ ValidTelegram (s.rxq.take 6)) ∧
      rxService s = .next ((s.setRxq (s.rxq.drop 6)).finish (.checksumMismatch sn rc c a k))) ∨
    (∃ sn rc c a, ValidTelegram (s.rxq.take 6) ∧
      rxService s = .next ((s.setRxq (s.rxq.drop 6)).finish (.telegram sn rc c a))) := by
  rcases rxService_cases s with hshort | ⟨d, rest, hq, hlen, hd, h⟩ | ⟨sn, rc, c, a, k, rest, hq, hk, h⟩ |
    ⟨sn, rc, c, a, rest, hq, h⟩
  · exact .inl hshort
  · exact .inr (.inl ⟨d, ⟨by simpa [hq], by simp [hq], hd⟩, by simpa [hq] using h⟩)
  · refine .inr (.inr (.inl ⟨sn, rc, c, a, k, ⟨by simp [hq], by simp [hq, frameBytes], ?_⟩, by simpa [hq] using h⟩))
    rwa [hq, frameBytes_take, validTelegram_frameBytes_iff]
  · refine .inr (.inr (.inr ⟨sn, rc, c, a, ?_, by simpa [hq] using h⟩))
    rw [hq, telegramBytes_take]
    exact Payload.bytes_valid ⟨sn, rc, c, a⟩

/-- A service removes what its outcome says (R134), and nothing else changes but that the command has ended. -/
theorem rxService_consumes (s : State) :
    ∃ o : CommandOutcome, rxService s = .next ((s.setRxq (s.rxq.drop o.consumed)).finish o) := by
  rcases rxService_cases_by_tests s with ⟨-, h⟩ | ⟨_, -, h⟩ | ⟨_, _, _, _, _, -, h⟩ | ⟨_, _, _, _, -, h⟩ <;>
    exact ⟨_, h⟩

/-- Settles O16: one test after another; the outcomes are distinct, and a valid telegram meets the first two tests. -/
theorem rxsvcPriority : Obligations.RxsvcPriority := by
  intro s t h
  change rxService s = .next t at h
  have hvalid := six_le_and_head_of_valid_take (q := s.rxq)
  rcases rxService_cases_by_tests s with ⟨hshort, h'⟩ | ⟨d, ⟨hsix, hhead, hd⟩, h'⟩ |
    ⟨sn, rc, c, a, k, ⟨hsix, hhead, hwrong⟩, h'⟩ | ⟨sn, rc, c, a, hright, h'⟩ <;> rw [h'] at h <;> cases h
  · have hinvalid : ¬ ValidTelegram (s.rxq.take 6) := fun hv => hshort.not_ge (hvalid hv).1
    simp [hshort, hinvalid]
  · have hinvalid : ¬ ValidTelegram (s.rxq.take 6) := fun hv => hd (by simpa [hhead] using (hvalid hv).2)
    simpa [hhead, hinvalid, hsix, Config.domain] using hd
  · simp [hsix, hhead, hwrong, Config.domain]
  · obtain ⟨hsix, hhead⟩ := hvalid hright
    simp [hsix, hhead, hright, Config.domain]

/-! ### Commands and their outcomes -/

/-- A pure command returns `OK`, or FENC or UNPK reports its first operand (R105, R107). -/
theorem pureOutcome_ok_or_invalid {p : Params} {i : Instr} {o : CommandOutcome} (h : pureOutcome p i = some o) :
    (∃ r, o = .ok r) ∨ ∃ v, o = .invalidArgument v ∧ (i = .fenc v ∨ ∃ b, i = .unpk v b) := by
  cases i <;> cases h
  case fenc v =>
    by_cases hv : 1 ≤ v.toNat ∧ v.toNat ≤ 8
    · exact .inl ⟨_, fanWireByte_valid v hv⟩
    · exact .inr ⟨v, fanWireByte_invalid v hv, .inl rfl⟩
  case unpk l b =>
    rcases hl : p.layouts[l.toNat]? with _ | lay
    · exact .inr ⟨l, unpack_unnamed _ l b (List.getElem?_eq_none_iff.mp hl), .inr ⟨b, rfl⟩⟩
    · exact .inl ⟨_, unpack_named _ l b lay hl⟩
  all_goals exact .inl ⟨_, rfl⟩

/-- A command other than RXSVC returns `OK`, or it is FENC or UNPK, reports its first operand and changes nothing
else. -/
theorem exec_command_outcome {i : Instr} (hc : i.isCommand = true) (hne : i ≠ .rxsvc) (s : State) :
    ∃ (t : State) (o : CommandOutcome), exec i s = .next t ∧ t.returned = some o ∧
      ((∃ r, o = .ok r) ∨ ∃ v, o = .invalidArgument v ∧ t = s.respond o ∧ (i = .fenc v ∨ ∃ b, i = .unpk v b)) := by
  rcases pure_or_transmitted_of_command hc hne s.params with ⟨o, ho⟩ | ⟨sn, rc, v, a, htx⟩
  · refine ⟨s.respond o, o, exec_of_pureOutcome ho, rfl, ?_⟩
    exact (pureOutcome_ok_or_invalid ho).imp_right fun ⟨v, hv, hi⟩ => ⟨v, hv, rfl, hi⟩
  · exact ⟨_, _, (exec_of_transmitted htx s).trans (transmit_eq s sn rc v a), rfl, .inl ⟨_, rfl⟩⟩

/-- Between commands `F` is empty and the phase Idle already: to end a service there is to return the outcome. -/
theorem State.Settled.finish_eq_respond {s : State} (hs : s.Settled) (o : CommandOutcome) :
    s.finish o = s.respond o := by
  obtain ⟨hframe, hphase⟩ := hs
  simp [State.finish, State.respond, ← hframe, ← hphase]

/-- Settles O27: the service's first test, and no other command returns `NoFrame`. -/
theorem noFrameIsANoOp : Obligations.NoFrameIsANoOp := by
  refine ⟨fun s hs hshort => ?_, fun i s t hc h hret => ?_, rfl, rfl, fun _ => rfl, fun _ _ _ _ => rfl⟩
  · exact (rxService_short s hshort).trans (congrArg _ (hs.finish_eq_respond .noFrame))
  · by_cases hi : i = .rxsvc
    · subst hi
      obtain ⟨hshort, -⟩ := rxsvcPriority s t h
      exact ⟨rfl, hshort.mpr hret⟩
    · obtain ⟨u, o, hu, ho, hkind⟩ := exec_command_outcome hc hi s
      obtain rfl : u = t := Host.Outcome.next.inj (hu.symm.trans h)
      obtain rfl : o = .noFrame := Option.some.inj (ho.symm.trans hret)
      simp at hkind

/-- Settles O28: the four outcomes of a service have codes 1 to 4, those of the other commands 0 or 5. -/
theorem outcomesByCommand : Obligations.OutcomesByCommand := by
  refine ⟨fun i s hc => ?_, fun _ => rfl, fun _ _ _ _ => rfl, rfl, fun _ => rfl, fun _ _ _ _ _ => rfl, fun _ => rfl⟩
  by_cases hi : i = .rxsvc
  · subst hi
    rcases rxService_cases s with ⟨-, h⟩ | ⟨_, _, -, -, -, h⟩ | ⟨_, _, _, _, _, _, -, -, h⟩ | ⟨_, _, _, _, _, -, h⟩ <;>
      exact ⟨_, _, h, rfl, by simp [CommandOutcome.code], by simp [CommandOutcome.code]⟩
  · obtain ⟨t, o, h, ho, ⟨r, rfl⟩ | ⟨v, rfl, -, hkind⟩⟩ := exec_command_outcome hc hi s
    · exact ⟨t, _, h, ho, by simp [hi, CommandOutcome.code], by simp [CommandOutcome.code]⟩
    · refine ⟨t, _, h, ho, by simp [hi, CommandOutcome.code], fun _ => ?_⟩
      exact hkind.imp (fun hi => ⟨v, hi, rfl⟩) fun ⟨b, hi⟩ => ⟨v, b, hi, rfl⟩

/-- From a state between commands, an error outcome says which bytes are gone from the queue; nothing else changes
(R167). -/
theorem exec_error_effect {i : Instr} {s t : State} {o : CommandOutcome} (hc : i.isCommand = true) (hs : s.Settled)
    (h : exec i s = .next t) (hret : t.returned = some o) (herr : o.isError = true) :
    t = { s with rxq := s.rxq.drop o.consumed, returned := some o } := by
  by_cases hi : i = .rxsvc
  · subst hi
    obtain ⟨o', h'⟩ := rxService_consumes s
    obtain rfl : (s.setRxq (s.rxq.drop o'.consumed)).finish o' = t := Host.Outcome.next.inj (h'.symm.trans h)
    obtain rfl : o' = o := Option.some.inj hret
    exact State.Settled.finish_eq_respond (s := s.setRxq (s.rxq.drop o'.consumed)) hs o'
  · obtain ⟨u, o', hu, ho', hkind⟩ := exec_command_outcome hc hi s
    obtain rfl : u = t := Host.Outcome.next.inj (hu.symm.trans h)
    obtain rfl : o' = o := Option.some.inj (ho'.symm.trans hret)
    rcases hkind with ⟨r, rfl⟩ | ⟨v, rfl, rfl, -⟩
    · cases herr
    · rfl

/-- Settles O29: each error outcome with the bytes it says are gone; and every command leaves the block between
commands. -/
theorem errorEffects : Obligations.ErrorEffects := by
  intro i s t o hc hs h hret
  obtain ⟨-, -, hkeep, -⟩ := exec_effect s t i h
  obtain ⟨-, hidle⟩ := hkeep hs
  have heffect := exec_error_effect hc hs h hret
  refine ⟨?_, ?_, ?_, hidle⟩
  · rintro b rfl
    exact heffect rfl
  · rintro sn rc c a k rfl
    exact heffect rfl
  · rintro v rfl
    exact heffect rfl

/-! ### No outcome is sticky, no step faults -/

/-- What the last step returned does not bear on an instruction. -/
theorem exec_returned (i : Instr) (s : State) (o : Option CommandOutcome) :
    exec i { s with returned := o } = exec i s := by
  rcases exec_cases s i with ⟨o', hpure, h⟩ | ⟨rfl, h⟩ | ⟨sn, rc, v, a, htx, h⟩ | ⟨sn, rc, c, a, k, hrx, h⟩
  · rw [h]
    exact exec_of_pureOutcome (s := { s with returned := o }) hpure
  · exact rxService_congr s _ rfl rfl rfl rfl
  · rw [h, exec_of_transmitted htx, transmit_eq]
    rfl
  · rw [h, exec_of_received hrx]
    rfl

/-- Bytes that find room are received by a service, which answers; those that find none are refused (U4). -/
theorem receiveBytes_ne_fault {bs : List Byte} (hne : bs ≠ []) (s : State) (f : Fault) :
    receiveBytes bs s ≠ .fault f := by
  rcases hroom : s.roomFor bs.length with _ | _
  · simp [receiveBytes_full s bs hne hroom]
  · obtain ⟨t, ht⟩ := rxService_answers (s.setRxq (s.rxq ++ bs)).silent
    simp [receiveBytes_room s bs hne hroom, ht]

theorem exec_ne_fault (i : Instr) (s : State) (f : Fault) : exec i s ≠ .fault f := by
  rcases exec_cases s i with ⟨o, -, h⟩ | ⟨-, h⟩ | ⟨sn, rc, v, a, -, h⟩ | ⟨sn, rc, c, a, k, -, h⟩ <;> rw [h]
  · simp
  · obtain ⟨t, ht⟩ := rxService_answers s
    simp [ht]
  · simp
  · exact receiveBytes_ne_fault (by simp [frameBytes]) s f

theorem rxArrive_ne_fault (b : Byte) (s : State) (f : Fault) : rxArrive b s ≠ .fault f := by
  rw [rxArrive_eq]
  split <;> simp

theorem restart_ne_fault (init : List Byte) (s : State) (f : Fault) : restart init s ≠ .fault f := by
  simp only [restart]
  split <;> simp

theorem step_ne_fault (s : State) (f : Fault) : step s ≠ .fault f := by
  unfold step
  cases fetch s with
  | idle => simp
  | arrival b s => exact rxArrive_ne_fault b s f
  | restart init s => exact restart_ne_fault init s f
  | instruction i s => exact exec_ne_fault i s f
  | strayFrame w s => exact receiveBytes_ne_fault (telegramWordBytes_ne_nil w) s f
  | rejected r => simp

/-- Settles O30: no instruction reads the last outcome, and nothing a step can be ends in a fault. -/
theorem noErrorIsStickyOrFatal : Obligations.NoErrorIsStickyOrFatal :=
  ⟨exec_returned, step_ne_fault⟩

/-! ### Notifications, and a step with nothing to do -/

/-- Settles O31: by the map from outcomes to notifications. -/
theorem notificationsCarryPayloads : Obligations.NotificationsCarryPayloads := by
  intro o
  refine ⟨?_, ?_, ?_, ?_⟩
  · rintro sn rc c a rfl; rfl
  · rintro sn rc c a k rfl; rfl
  · rintro b rfl; rfl
  · rintro (⟨r, rfl⟩ | rfl | ⟨v, rfl⟩) <;> rfl

theorem step_idle (s : State) (h : s.inputs = []) : step s = .next s.silent := by
  rw [step, fetch_idle s h]

/-- Settles O42: the fetch finds no event. -/
theorem idleStepChangesNothing : Obligations.IdleStepChangesNothing :=
  step_idle

end Sys2Proof.Machine

/-!
Family `70_reset_and_hazards.md` (R190 to R207): the state after reset and what a restart keeps, a partial telegram
that waits, the bytes that are no speed, and that a suspend telegram does not bear on a transmission.
-/

namespace Sys2Proof.Machine

/-! ### A partial telegram -/

/-- Services on fewer than six bytes find no frame, however many they are, and leave the queues for the next one. -/
theorem runCommands_short (n : Nat) {s : State} (hshort : s.rxq.length < 6) :
    ∃ t : State, runCommands (List.replicate n .rxsvc) s = some (List.replicate n .noFrame, t) ∧
      t.rxq = s.rxq ∧ t.txq = s.txq := by
  induction n generalizing s with
  | zero => exact ⟨s, rfl, rfl, rfl⟩
  | succ n ih =>
    obtain ⟨t, hrun, hkept⟩ := ih (s := s.finish .noFrame) hshort
    exact ⟨t, runCommands_replicate_succ (rxService_short s hshort) hrun, hkept⟩

/-- Settles O20: by induction on the services, and since a queue without a depth has room for one more byte. -/
theorem partialTelegramWaits : Obligations.PartialTelegramWaits := by
  refine fun n s hshort _ => ⟨runCommands_short n hshort, fun b rest hdepth hin => ?_⟩
  have hroom : State.roomFor 1 { s with inputs := rest } = true := State.roomFor_unbounded _ 1 hdepth
  rw [step_arrival s b rest hin, rxArrive_eq, if_pos hroom]
  exact ⟨_, rfl, rfl⟩

/-! ### Reset and restart -/

/-- Settles O49: the fields of the reset state, by its definition. -/
theorem resetState : Obligations.ResetState :=
  ⟨fun _ _ => ⟨rfl, rfl, rfl, rfl, rfl⟩, rfl, rfl⟩

theorem State.resetWith_settled (p : Params) (init : List Byte) : (State.resetWith p init).Settled :=
  ⟨rfl, rfl⟩

theorem State.resetWith_withinDepth {p : Params} {init : List Byte}
    (hfits : ∀ d, p.rxDepth = some d → init.length ≤ d) : (State.resetWith p init).WithinDepth :=
  hfits

/-- Settles O52: `F` and the phase do not depend on the parameters, and the content of the buffer is the queue. -/
theorem resetMeetsInvariant : Obligations.ResetMeetsInvariant := by
  have hunbounded : ∀ d, Config.params.rxDepth = some d → Config.rxqInit.length ≤ d := fun _ hd => nomatch hd
  exact ⟨fun p init hfits => ⟨State.resetWith_settled p init, State.resetWith_withinDepth hfits⟩,
    State.resetWith_settled _ _, State.resetWith_withinDepth hunbounded⟩

theorem step_restart (s : State) (init : List Byte) (rest : List Event) (h : s.inputs = .restart init :: rest) :
    step s = restart init { s with inputs := rest } := by
  rw [step, fetch_restart s init rest h]

/-- A restart reads the open parameters and the coming events alone (R191). -/
theorem restart_congr (init : List Byte) {s t : State} (hparams : s.params = t.params) (hinputs : s.inputs = t.inputs) :
    restart init s = restart init t := by
  simp only [restart, hparams, hinputs]

/-- A restart with a content that fits gives the reset state for it (R190). -/
theorem restart_of_fits {init : List Byte} {s : State} (hfits : ∀ d, s.params.rxDepth = some d → init.length ≤ d) :
    restart init s = .next { State.resetWith s.params init with inputs := s.inputs } := by
  have hroom : State.roomFor init.length { State.resetWith s.params [] with inputs := s.inputs } = true :=
    (State.roomFor_eq_true_iff _ _).mpr (by simpa [State.resetWith] using hfits)
  exact if_pos hroom

/-- Settles O50: the step is the restart, which reads nothing that the two states do not share. -/
theorem nothingSurvivesReset : Obligations.NothingSurvivesReset := by
  intro s t init rest hparams hs ht
  rw [step_restart s init rest hs, step_restart t init rest ht]
  exact ⟨restart_congr init hparams rfl, restart_of_fits (s := { s with inputs := rest })⟩

/-! ### Bytes that are no speed -/

/-- FDEC gives 0 for exactly the bytes that are not in the fan table. -/
theorem speedOf_eq_zero_iff (b : Byte) : speedOf b = 0 ↔ ∀ k : Fin 8, Config.fanTable[k] ≠ b := by
  refine ⟨?_, speedOf_unrecognised b⟩
  rintro hzero k rfl
  exact absurd ((speedOf_fanTable k).symm.trans hzero) k.val.succ_ne_zero

/-- The bytes of the fan table, as numbers. -/
def fanBytes : Finset Nat := Finset.univ.image fun k : Fin 8 => Config.fanTable[k].toNat

/-- The entries of the fan table are distinct. -/
theorem card_fanBytes : fanBytes.card = 8 := by decide

theorem fanBytes_subset_range : fanBytes ⊆ Finset.range 256 := by decide

theorem speedOf_ofNat_eq_zero_iff {n : Nat} (hn : n < 256) : speedOf (BitVec.ofNat 8 n) = 0 ↔ n ∉ fanBytes := by
  simp [speedOf_eq_zero_iff, fanBytes, ← BitVec.toNat_inj, Nat.mod_eq_of_lt hn]

/-- The bytes that FDEC gives 0 for are all but the eight of the fan table. -/
theorem card_speedOf_eq_zero : ((Finset.range 256).filter fun n => speedOf (BitVec.ofNat 8 n) = 0).card = 248 := by
  have hothers : (Finset.range 256).filter (fun n => speedOf (BitVec.ofNat 8 n) = 0) = Finset.range 256 \ fanBytes := by
    rw [Finset.sdiff_eq_filter]
    exact Finset.filter_congr fun n hn => speedOf_ofNat_eq_zero_iff (Finset.mem_range.mp hn)
  rw [hothers, Finset.card_sdiff_of_subset fanBytes_subset_range, card_fanBytes, Finset.card_range]

/-- Settles O5: FDEC gives 0 for all bytes but those of the fan table, and FENC's range starts at 1. -/
theorem unrecognisedSpeedIsNotASpeed : Obligations.UnrecognisedSpeedIsNotASpeed :=
  ⟨⟨speedOf, fun _ _ => rfl, card_speedOf_eq_zero⟩,
    fun _ => (exec_eq_next_iff_of_pureOutcome rfl).mpr (fanWireByte_invalid 0 (by decide))⟩

/-! ### A transmission while suspended -/

/-- Settles O40: a transmission appends its telegram in every state, so in the one a suspend telegram leaves. -/
theorem transmitsWhileSuspended : Obligations.TransmitsWhileSuspended :=
  fun _ t _ _ _ sn rc v a _ _ => transmit_eq t sn rc v a

end Sys2Proof.Machine
